-- ==== Sys2Proof/Word.lean ====
section
/-! DEFINITION. The words of the machine (R8, R10, R16): bytes, 16-bit words and addresses, and the instruction's field
widths. -/

namespace Sys2Proof

/-- An 8-bit value: a general register, SP, DT, ST, a byte of memory, the immediate kk (R8, R16). -/
abbrev Byte := BitVec 8

/-- A 16-bit value: I, PC, an address, an instruction word, a return address (R8, R50, R81). -/
abbrev Word := BitVec 16

/-- A 4-bit field of an instruction: a register number x or y, or the row count n (R10, R16). -/
abbrev Nibble := BitVec 4

/-- The 12-bit address field nnn of an instruction (R16). -/
abbrev Addr12 := BitVec 12

end Sys2Proof
end

