-- ==== Sys2Proof/Syntax.lean ====
section
/-! DEFINITION. The instructions: one constructor per row of spec/opcode_table.json (R85, R90, R95). -/

namespace Sys2Proof

/-- The 34 instructions of R85, in the opcode table's order. Operand widths are the widths of the fields of R82, so a
register number outside 0–15 cannot be written (R22). `cls` and `ret` carry bits 11:8 of their word, which decode
ignores (R86), only so that a halt report can hold the word as fetched (R31); no effect depends on them. -/
inductive Instr where
  /-- CLS, word 0-E0 (R104); `ign` is the ignored bits 11:8. -/
  | cls (ign : Nibble)
  /-- RET, word 0-EE (R105); `ign` is the ignored bits 11:8. -/
  | ret (ign : Nibble)
  /-- JP nnn, word 1nnn (R106). -/
  | jp (nnn : Addr12)
  /-- CALL nnn, word 2nnn (R108). -/
  | call (nnn : Addr12)
  /-- SE Vx, kk, word 3xkk (R109). -/
  | seImm (x : Nibble) (kk : Byte)
  /-- SNE Vx, kk, word 4xkk (R110). -/
  | sneImm (x : Nibble) (kk : Byte)
  /-- SE Vx, Vy, word 5xy0 (R111). -/
  | seReg (x y : Nibble)
  /-- LD Vx, kk, word 6xkk (R120). -/
  | ldImm (x : Nibble) (kk : Byte)
  /-- ADD Vx, kk, word 7xkk (R121). -/
  | addImm (x : Nibble) (kk : Byte)
  /-- LD Vx, Vy, word 8xy0 (R130). -/
  | ldReg (x y : Nibble)
  /-- OR Vx, Vy, word 8xy1 (R131). -/
  | orReg (x y : Nibble)
  /-- AND Vx, Vy, word 8xy2 (R132). -/
  | andReg (x y : Nibble)
  /-- XOR Vx, Vy, word 8xy3 (R133). -/
  | xorReg (x y : Nibble)
  /-- ADD Vx, Vy, word 8xy4 (R134). -/
  | addReg (x y : Nibble)
  /-- SUB Vx, Vy, word 8xy5 (R135). -/
  | subReg (x y : Nibble)
  /-- SHR Vx, Vy, word 8xy6 (R136). -/
  | shrReg (x y : Nibble)
  /-- SUBN Vx, Vy, word 8xy7 (R137). -/
  | subnReg (x y : Nibble)
  /-- SHL Vx, Vy, word 8xyE (R138). -/
  | shlReg (x y : Nibble)
  /-- SNE Vx, Vy, word 9xy0 (R112). -/
  | sneReg (x y : Nibble)
  /-- LD I, nnn, word Annn (R150). -/
  | ldI (nnn : Addr12)
  /-- JP V0, nnn, word Bnnn (R113). -/
  | jpV0 (nnn : Addr12)
  /-- RND Vx, kk, word Cxkk (R160). -/
  | rnd (x : Nibble) (kk : Byte)
  /-- DRW Vx, Vy, n, word Dxyn (R175). -/
  | drw (x y n : Nibble)
  /-- SKP Vx, word Ex9E (R190). -/
  | skp (x : Nibble)
  /-- SKNP Vx, word ExA1 (R191). -/
  | sknp (x : Nibble)
  /-- LD Vx, DT, word Fx07 (R200). -/
  | ldFromDt (x : Nibble)
  /-- LD Vx, K, word Fx0A (R192). -/
  | ldKey (x : Nibble)
  /-- LD DT, Vx, word Fx15 (R201). -/
  | ldToDt (x : Nibble)
  /-- LD ST, Vx, word Fx18 (R202). -/
  | ldToSt (x : Nibble)
  /-- ADD I, Vx, word Fx1E (R151). -/
  | addI (x : Nibble)
  /-- LD F, Vx, word Fx29 (R152). -/
  | ldF (x : Nibble)
  /-- LD B, Vx, word Fx33 (R210). -/
  | ldBcd (x : Nibble)
  /-- LD [I], Vx, word Fx55 (R212). -/
  | ldStore (x : Nibble)
  /-- LD Vx, [I], word Fx65 (R214). -/
  | ldLoad (x : Nibble)
deriving DecidableEq, Repr

end Sys2Proof
end

