-- ==== Sys2Proof/Decode.lean ====
section
/-! DEFINITION. The decoder over every 16-bit word (R82–R89), over bytes as memory holds them (R61, R81), and then the
encoder, from the same layout. The opcode numbers are R85's (D1, log entry 12). -/

namespace Sys2Proof

/-! ## Fields (R16, R82) -/

/-- Bits 15:12, the highest nibble. -/
def fieldOp (w : Word) : Nibble := w.extractLsb' 12 4

/-- Bits 11:8, the register number x (or the bits CLS and RET ignore). -/
def fieldX (w : Word) : Nibble := w.extractLsb' 8 4

/-- Bits 7:4, the register number y. -/
def fieldY (w : Word) : Nibble := w.extractLsb' 4 4

/-- Bits 3:0, the lowest nibble. -/
def fieldN (w : Word) : Nibble := w.extractLsb' 0 4

/-- Bits 7:0, the lowest byte. -/
def fieldKk (w : Word) : Byte := w.extractLsb' 0 8

/-- Bits 11:0, the address field. -/
def fieldNnn (w : Word) : Addr12 := w.extractLsb' 0 12

/-- The word whose more significant byte is `hi`: the byte at the lower address (R61, R80). -/
def wordOfBytes (hi lo : Byte) : Word := hi ++ lo

/-- Bits 15:8 of a word: the byte stored at the lower address (R58, R61). -/
def hiByte (w : Word) : Byte := w.extractLsb' 8 8

/-- Bits 7:0 of a word: the byte stored at the higher address (R58, R61). -/
def loByte (w : Word) : Byte := w.extractLsb' 0 8

/-! ## Decoding (R84, R85) -/

/-- Op 0x0: the lowest byte selects, bits 11:8 are not examined (R86). -/
def decodeOp0 (w : Word) : Option Instr :=
  if fieldKk w = 0xE0#8 then some (.cls (fieldX w))
  else if fieldKk w = 0xEE#8 then some (.ret (fieldX w))
  else none

/-- Op 0x8: the lowest nibble selects; 8–D and F are Unknown (R85, R87). -/
def decodeOp8 (w : Word) : Option Instr :=
  match (fieldN w).toNat with
  | 0x0 => some (.ldReg (fieldX w) (fieldY w))
  | 0x1 => some (.orReg (fieldX w) (fieldY w))
  | 0x2 => some (.andReg (fieldX w) (fieldY w))
  | 0x3 => some (.xorReg (fieldX w) (fieldY w))
  | 0x4 => some (.addReg (fieldX w) (fieldY w))
  | 0x5 => some (.subReg (fieldX w) (fieldY w))
  | 0x6 => some (.shrReg (fieldX w) (fieldY w))
  | 0x7 => some (.subnReg (fieldX w) (fieldY w))
  | 0xE => some (.shlReg (fieldX w) (fieldY w))
  | _ => none

/-- Op 0xE: the lowest byte selects (R85). -/
def decodeOpE (w : Word) : Option Instr :=
  if fieldKk w = 0x9E#8 then some (.skp (fieldX w))
  else if fieldKk w = 0xA1#8 then some (.sknp (fieldX w))
  else none

/-- Op 0xF: the lowest byte selects (R85). -/
def decodeOpF (w : Word) : Option Instr :=
  if fieldKk w = 0x07#8 then some (.ldFromDt (fieldX w))
  else if fieldKk w = 0x0A#8 then some (.ldKey (fieldX w))
  else if fieldKk w = 0x15#8 then some (.ldToDt (fieldX w))
  else if fieldKk w = 0x18#8 then some (.ldToSt (fieldX w))
  else if fieldKk w = 0x1E#8 then some (.addI (fieldX w))
  else if fieldKk w = 0x29#8 then some (.ldF (fieldX w))
  else if fieldKk w = 0x33#8 then some (.ldBcd (fieldX w))
  else if fieldKk w = 0x55#8 then some (.ldStore (fieldX w))
  else if fieldKk w = 0x65#8 then some (.ldLoad (fieldX w))
  else none

/-- The decode function of R85; `none` is R85's Unknown. It depends on nothing but the word (R84). -/
def decode (w : Word) : Option Instr :=
  match (fieldOp w).toNat with
  | 0x0 => decodeOp0 w
  | 0x1 => some (.jp (fieldNnn w))
  | 0x2 => some (.call (fieldNnn w))
  | 0x3 => some (.seImm (fieldX w) (fieldKk w))
  | 0x4 => some (.sneImm (fieldX w) (fieldKk w))
  | 0x5 => if fieldN w = 0x0#4 then some (.seReg (fieldX w) (fieldY w)) else none
  | 0x6 => some (.ldImm (fieldX w) (fieldKk w))
  | 0x7 => some (.addImm (fieldX w) (fieldKk w))
  | 0x8 => decodeOp8 w
  | 0x9 => if fieldN w = 0x0#4 then some (.sneReg (fieldX w) (fieldY w)) else none
  | 0xA => some (.ldI (fieldNnn w))
  | 0xB => some (.jpV0 (fieldNnn w))
  | 0xC => some (.rnd (fieldX w) (fieldKk w))
  | 0xD => some (.drw (fieldX w) (fieldY w) (fieldN w))
  | 0xE => decodeOpE w
  | 0xF => decodeOpF w
  | _ => none

/-- Why bytes are not an instruction. -/
inductive DecodeError where
  /-- R85's Unknown: the word, as fetched, is no instruction (R87). -/
  | unknown (w : Word)
  /-- Fewer than the two bytes every instruction has (R81). -/
  | truncated
deriving DecidableEq, Repr

/-- Decode the first instruction of a run of bytes, lowest address first: always two bytes, big-endian (R61, R81). -/
def decodeBytes : List Byte → Except DecodeError (Instr × List Byte)
  | hi :: lo :: rest =>
    match decode (wordOfBytes hi lo) with
    | some i => .ok (i, rest)
    | none => .error (.unknown (wordOfBytes hi lo))
  | [_] => .error .truncated
  | [] => .error .truncated

/-! ## Encoding (R82, R85, R95) -/

/-- The `nnn` view: op, then 12 bits. -/
def wordNnn (op : Nibble) (nnn : Addr12) : Word := op ++ nnn

/-- The `xkk` view: op, x, then 8 bits. -/
def wordXkk (op x : Nibble) (kk : Byte) : Word := (op ++ x : Byte) ++ kk

/-- The `xyn` view (and `xy`, whose last nibble is fixed): op, x, y, n. -/
def wordXyn (op x y n : Nibble) : Word := (op ++ x : Byte) ++ (y ++ n : Byte)

/-- The word of an instruction (R85, R95). -/
def encode : Instr → Word
  | .cls ign => wordXkk 0x0 ign 0xE0
  | .ret ign => wordXkk 0x0 ign 0xEE
  | .jp nnn => wordNnn 0x1 nnn
  | .call nnn => wordNnn 0x2 nnn
  | .seImm x kk => wordXkk 0x3 x kk
  | .sneImm x kk => wordXkk 0x4 x kk
  | .seReg x y => wordXyn 0x5 x y 0x0
  | .ldImm x kk => wordXkk 0x6 x kk
  | .addImm x kk => wordXkk 0x7 x kk
  | .ldReg x y => wordXyn 0x8 x y 0x0
  | .orReg x y => wordXyn 0x8 x y 0x1
  | .andReg x y => wordXyn 0x8 x y 0x2
  | .xorReg x y => wordXyn 0x8 x y 0x3
  | .addReg x y => wordXyn 0x8 x y 0x4
  | .subReg x y => wordXyn 0x8 x y 0x5
  | .shrReg x y => wordXyn 0x8 x y 0x6
  | .subnReg x y => wordXyn 0x8 x y 0x7
  | .shlReg x y => wordXyn 0x8 x y 0xE
  | .sneReg x y => wordXyn 0x9 x y 0x0
  | .ldI nnn => wordNnn 0xA nnn
  | .jpV0 nnn => wordNnn 0xB nnn
  | .rnd x kk => wordXkk 0xC x kk
  | .drw x y n => wordXyn 0xD x y n
  | .skp x => wordXkk 0xE x 0x9E
  | .sknp x => wordXkk 0xE x 0xA1
  | .ldFromDt x => wordXkk 0xF x 0x07
  | .ldKey x => wordXkk 0xF x 0x0A
  | .ldToDt x => wordXkk 0xF x 0x15
  | .ldToSt x => wordXkk 0xF x 0x18
  | .addI x => wordXkk 0xF x 0x1E
  | .ldF x => wordXkk 0xF x 0x29
  | .ldBcd x => wordXkk 0xF x 0x33
  | .ldStore x => wordXkk 0xF x 0x55
  | .ldLoad x => wordXkk 0xF x 0x65

/-- The bytes of an instruction as memory holds them, lowest address first (R61). -/
def encodeBytes (i : Instr) : List Byte := [hiByte (encode i), loByte (encode i)]

/-! ## The opcode table's numbering -/

/-- The 16-bit word whose table-numbered bits are the low `nbits` bits of `w`; the bits above are 0. -/
def tableWord (nbits w : Nat) : Word := BitVec.ofNat 16 (w % 2 ^ nbits)

/-- What the decoder reads from the instruction with table-numbered bits `w`, laid out big-endian as memory holds it. -/
def decodeTableWord (nbits w : Nat) : Option Instr :=
  match decodeBytes [hiByte (tableWord nbits w), loByte (tableWord nbits w)] with
  | .ok (i, _) => some i
  | .error _ => none

end Sys2Proof
end

