-- ==== Sys2Proof/Config.lean ====
section
/-! DEFINITION. What the implementation fixes (R8, R9) and the one free value of the spec, the random byte (R161). -/

namespace Sys2Proof

/-- The random byte of the k-th RND of a run. It has no body: the source names no generator, seed, distribution or
sequence (R161, D13), so nothing can be proved of a draw but that it is 8 bits wide. Log entry 1. -/
opaque Config.rng : Nat → Byte

/-- The default of the parameter FONT: R45's table, glyph by glyph, top row first. PRESUMED: R45 marks it as general
knowledge; every state carries its own FONT, so only a claim about `State.reset` rests on it. Log entry 3. -/
def Config.defaultFont : Vector Byte 80 :=
  #v[0xF0, 0x90, 0x90, 0x90, 0xF0,
     0x20, 0x60, 0x20, 0x20, 0x70,
     0xF0, 0x10, 0xF0, 0x80, 0xF0,
     0xF0, 0x10, 0xF0, 0x10, 0xF0,
     0x90, 0x90, 0xF0, 0x10, 0x10,
     0xF0, 0x80, 0xF0, 0x10, 0xF0,
     0xF0, 0x80, 0xF0, 0x90, 0xF0,
     0xF0, 0x10, 0x20, 0x40, 0x40,
     0xF0, 0x90, 0xF0, 0x90, 0xF0,
     0xF0, 0x90, 0xF0, 0x10, 0xF0,
     0xF0, 0x90, 0xF0, 0x90, 0x90,
     0xE0, 0x90, 0xE0, 0x90, 0xE0,
     0xF0, 0x80, 0x80, 0x80, 0xF0,
     0xE0, 0x90, 0x90, 0x90, 0xE0,
     0xF0, 0x80, 0xF0, 0x80, 0xF0,
     0xF0, 0x80, 0xF0, 0x80, 0x80]

/-- Timer units (1/60 ms) in one millisecond of elapsed time (R250, D15). -/
def Config.unitsPerMs : Nat := 60

/-- Timer units (1/60 ms) in one frame interval of 1000/60 ms (R8, R250, D15). -/
def Config.unitsPerFrame : Nat := 1000

/-- Bytes of program space, 0x200–0xFFE (R39, R273). -/
def Config.programBytes : Nat := 3583

end Sys2Proof
end

