-- ==== Sys2Proof/Machine/State.lean ====
section
/-! DEFINITION. The state of the block (10_state.md), the reasons a transaction can stop, and the state at power-on. -/

namespace Sys2Proof.Machine

/-! ## Memory as data -/

/-- What a byte of memory holds when nothing is listed for it: the power-on contents of R46, that is R45's table in the
font region and zero elsewhere (log entries 3 and 4). -/
def blankByte (a : Nat) : Byte :=
  if 0x090 ≤ a then Config.defaultFont.toList.getD (a - 0x090) 0 else 0

/-- Memory as (address, byte) pairs in canonical form (`memWf`): addresses strictly rising, no pair equal to what an
unlisted address holds (R35). -/
abbrev Memory := List Host.Cell

/-- Every listed address is at least `lo`, addresses strictly rise, and no pair holds its `blankByte`. -/
def memWfFrom : Nat → Memory → Bool
  | _, [] => true
  | lo, (a, b) :: m => decide (lo ≤ a) && (b != blankByte a) && memWfFrom (a + 1) m

/-- The canonical form: two memories in this form that read alike everywhere are equal lists. -/
abbrev memWf (m : Memory) : Bool := memWfFrom 0 m

/-! ## Run state, reports and events -/

/-- The fault kinds of R230, numbered by `FaultKind.code`. -/
inductive FaultKind where
  /-- A refused memory access; recovered (R231). -/
  | outOfRange
  /-- CALL with the stack full; fatal (R233). -/
  | stackOverflow
  /-- RET with the stack empty; fatal (R233). -/
  | stackUnderrun
  /-- A word that is no instruction; fatal (R235). -/
  | unknownOpcode
  /-- An image too large for program space; a result of `loadProgram` (R232). -/
  | resourceLoadFailure
deriving DecidableEq, Repr

/-- The numbering of R230 (D22); no rule depends on it. -/
def FaultKind.code : FaultKind → Nat
  | .outOfRange => 0
  | .stackOverflow => 1
  | .stackUnderrun => 2
  | .unknownOpcode => 3
  | .resourceLoadFailure => 4

/-- The three fatal kinds a halt report can hold (R31, R233). -/
inductive FatalKind where
  /-- R234. -/
  | stackOverflow
  /-- R234. -/
  | stackUnderrun
  /-- R235. -/
  | unknownOpcode
deriving DecidableEq, Repr

/-- A fatal kind as one of the fault kinds of R230. -/
def FatalKind.toFaultKind : FatalKind → FaultKind
  | .stackOverflow => .stackOverflow
  | .stackUnderrun => .stackUnderrun
  | .unknownOpcode => .unknownOpcode

/-- The halt report (R31). -/
structure HaltReport where
  /-- Which fatal condition halted the run. -/
  kind : FatalKind
  /-- The fetch address of the instruction that halted. -/
  address : Word
  /-- Its instruction word, as fetched. -/
  word : Word
deriving DecidableEq, Repr

/-- The run state (R30). -/
inductive RunState where
  /-- A step executes an instruction. -/
  | running
  /-- Entered by a JP to its own address (R106), left by any key event (R241). -/
  | pausedOnSelfJump
  /-- Entered by LD Vx, K (R192), left by a key press, which writes V[x] (R242). -/
  | pausedOnKeyWait (x : Nibble)
  /-- Entered by a fatal condition (R233), left by `reset()` only (R238). -/
  | halted (report : HaltReport)
deriving DecidableEq, Repr

/-- Whether a refused access was a read or a write (R44). -/
inductive Access where
  | read
  | write
deriving DecidableEq, Repr

/-- The width of a refused access (R44). -/
inductive AccessWidth where
  | bits8
  | bits16
deriving DecidableEq, Repr

/-- One event of the diagnostic output, always of kind OutOfRange (R44, R231). -/
structure DiagEvent where
  /-- Read or write. -/
  access : Access
  /-- 8 or 16 bits. -/
  width : AccessWidth
  /-- The address presented to the controller. -/
  address : Word
deriving DecidableEq, Repr

/-- The kind of every diagnostic event (R44). -/
def DiagEvent.kind (_ : DiagEvent) : FaultKind := .outOfRange

/-! ## The state -/

/-- Every piece of state of 10_state.md, and one field of the model's own (`draws`). Plain data. -/
structure State where
  /-- V0–VF; `v[15]` is VF, the flag (R20, R21). -/
  v : Vector Byte 16
  /-- The index register I (R24). -/
  i : Word
  /-- The program counter PC (R25). -/
  pc : Word
  /-- The stack pointer SP (R26). -/
  sp : Byte
  /-- The delay timer DT (R27). -/
  dt : Byte
  /-- The sound timer ST (R28). -/
  st : Byte
  /-- The byte array 0x000–0xFFE: font, stack, display, program space (R35–R39). -/
  mem : Memory
  /-- The run state, with the halt report (R30, R31). -/
  run : RunState
  /-- The held-key set: bit k is 1 when key k is held (R32). -/
  held : BitVec 16
  /-- The timer accumulator ACC, in 1/60 ms (R33). -/
  acc : Nat
  /-- QUIRK_SHIFT_SINGLE, fixed for the run (R34). -/
  quirkShiftSingle : Bool
  /-- QUIRK_LDST_NO_INC, fixed for the run (R34). -/
  quirkLdstNoInc : Bool
  /-- The parameter FONT, which `reset()` reloads (R45, R260). -/
  font : Vector Byte 80
  /-- The diagnostic output so far, oldest event first (R44). -/
  log : List DiagEvent
  /-- The model's own: how many draws RND has taken. DESIGN CHOICE, log entry 1. -/
  draws : Nat
deriving DecidableEq, Repr

/-- What stops a transaction with a fault of the spec. No `step` raises one: the fatal conditions of R233 are next states
whose run state is Halted (log entry 5). -/
inductive Fault where
  /-- Raised by `loadProgram` alone, for an image of more than 3583 bytes; nothing is loaded (R232, R273). Safe. -/
  | resourceLoadFailure
deriving DecidableEq, Repr

/-- What stops a transaction because nothing gives it a meaning. -/
inductive Refusal where
  /-- Raised by an arm of `exec` whose instruction has no meaning yet; no arm raises it now. Safe. -/
  | notModelled (mnemonic : String)
  /-- Raised by `deliverKeyEvent` alone, for a key number outside 0–15: "a model must not give it a meaning" (R240, D12).
  Safe. -/
  | keyOutsideContract (key : Nat)
deriving DecidableEq, Repr

/-- The outcome of an instruction or a transaction. -/
abbrev Result := Host.Outcome State Fault Refusal

/-- The power-on state (R46, R272), with the default FONT (log entry 3) and both quirk bits false (log entry 2); memory
lists nothing, because what is unlisted already reads as R46 says. `State.powerOn` takes the parameters as arguments. -/
def State.reset : State where
  v := Vector.replicate 16 0
  i := 0x0000
  pc := 0x0200
  sp := 0xE0
  dt := 0x00
  st := 0x00
  mem := []
  run := .running
  held := 0
  acc := 0
  quirkShiftSingle := false
  quirkLdstNoInc := false
  font := Config.defaultFont
  log := []
  draws := 0

end Sys2Proof.Machine
end

