-- ==== Sys2Proof/Machine/Ops.lean ====
section
/-! DEFINITION. The named operations every meaning is written over: memory as a map, the access controller (R50–R60), the
register file (R12, R20–R22), the call-stack engine (R101–R103), raising a fatal condition (R233), and fetch (R80). -/

namespace Sys2Proof.Machine

/-! ## Memory as a map -/

/-- The byte at an address. In canonical form addresses rise, so passing the address means it is not listed. -/
def memRead : Memory → Nat → Byte
  | [], a => blankByte a
  | (b, v) :: m, a => if a = b then v else if a < b then blankByte a else memRead m a

/-- Store one byte, keeping the canonical form: storing the `blankByte` removes the entry. -/
def memWrite : Memory → Nat → Byte → Memory
  | [], a, v => if v = blankByte a then [] else [(a, v)]
  | (b, w) :: m, a, v =>
    if a < b then (if v = blankByte a then (b, w) :: m else (a, v) :: (b, w) :: m)
    else if a = b then (if v = blankByte a then m else (a, v) :: m)
    else (b, w) :: memWrite m a v

/-- Store bytes at consecutive addresses, the first at `base`. -/
def memWriteBytes (m : Memory) (base : Nat) : List Byte → Memory
  | [] => m
  | b :: bs => memWriteBytes (memWrite m base b) (base + 1) bs

/-- The bytes at `n` consecutive addresses from `base`. -/
def memReadBytes (m : Memory) (base n : Nat) : List Byte := (List.range n).map fun k => memRead m (base + k)

/-- `mem[a]` of R13: the stored byte, without the access check. -/
def State.byteAt (s : State) (a : Nat) : Byte := memRead s.mem a

/-- `mem[a] <- v` of R13: store a byte, without the access check. -/
def State.setByte (s : State) (a : Nat) (v : Byte) : State := { s with mem := memWrite s.mem a v }

/-- Store bytes at consecutive addresses, without the access check (R63: the load and reset paths). -/
def State.setBytes (s : State) (base : Nat) (bytes : List Byte) : State :=
  { s with mem := memWriteBytes s.mem base bytes }

/-! ## Registers (R12) -/

/-- `V[x]`. -/
def State.getV (s : State) (x : Nibble) : Byte := s.v[x.toNat]'x.isLt

/-- `V[x] <- b`. -/
def State.setV (s : State) (x : Nibble) (b : Byte) : State := { s with v := s.v.set x.toNat b x.isLt }

/-- VF, the register that is also the flag (R21). -/
abbrev regF : Nibble := 0xF

/-- `I <- a`. -/
def State.setI (s : State) (a : Word) : State := { s with i := a }

/-- `PC <- a`. -/
def State.setPc (s : State) (a : Word) : State := { s with pc := a }

/-- `SP <- b`. -/
def State.setSp (s : State) (b : Byte) : State := { s with sp := b }

/-- `DT <- b`. -/
def State.setDt (s : State) (b : Byte) : State := { s with dt := b }

/-- `ST <- b`. -/
def State.setSt (s : State) (b : Byte) : State := { s with st := b }

/-- `runstate <- r`. -/
def State.setRun (s : State) (r : RunState) : State := { s with run := r }

/-- `held <- h`. -/
def State.setHeld (s : State) (h : BitVec 16) : State := { s with held := h }

/-- `ACC <- n`. -/
def State.setAcc (s : State) (n : Nat) : State := { s with acc := n }

/-- Put one event at the end of the diagnostic output (R44). -/
def State.emit (s : State) (e : DiagEvent) : State := { s with log := s.log ++ [e] }

/-- Count one draw of the random source (R161, log entry 1). -/
def State.countDraw (s : State) : State := { s with draws := s.draws + 1 }

/-! ## The access controller -/

/-- The region tags of R51. -/
inductive Region where
  /-- 0x090–0x0DF. -/
  | font
  /-- 0x0E0–0x0FF. -/
  | stack
  /-- 0x100–0x1FF. -/
  | display
  /-- 0x200–0xFFE. -/
  | program
  /-- Every other address. -/
  | none
deriving DecidableEq, Repr

/-- `tag(a)` of R51. -/
def tag (a : Nat) : Region :=
  if 0x090 ≤ a ∧ a ≤ 0x0DF then .font
  else if 0x0E0 ≤ a ∧ a ≤ 0x0FF then .stack
  else if 0x100 ≤ a ∧ a ≤ 0x1FF then .display
  else if 0x200 ≤ a ∧ a ≤ 0xFFE then .program
  else .none

/-- A 1-byte access at `a` is permitted (R52). -/
def permitted8 (a : Word) : Bool := tag a.toNat != .none

/-- A 2-byte access at `a` is permitted: both bytes in one region (R54). -/
def permitted16 (a : Word) : Bool := tag a.toNat != .none && tag (a.toNat + 1) == tag a.toNat

/-- `read8(a)` (R55): the byte, or 0xFF and an event. -/
def read8 (a : Word) (s : State) : Byte × State :=
  if permitted8 a then (s.byteAt a.toNat, s) else (0xFF, s.emit ⟨.read, .bits8, a⟩)

/-- `read16(a)` (R56): the big-endian word, or 0xFFFF and an event. -/
def read16 (a : Word) (s : State) : Word × State :=
  if permitted16 a then (wordOfBytes (s.byteAt a.toNat) (s.byteAt (a.toNat + 1)), s)
  else (0xFFFF, s.emit ⟨.read, .bits16, a⟩)

/-- `write8(a, v)` (R57): whether it succeeded, and the state; a refused write stores nothing and emits an event. -/
def write8 (a : Word) (v : Byte) (s : State) : Bool × State :=
  if permitted8 a then (true, s.setByte a.toNat v) else (false, s.emit ⟨.write, .bits8, a⟩)

/-- `write16(a, v)` (R58): big-endian, all or nothing. -/
def write16 (a : Word) (v : Word) (s : State) : Bool × State :=
  if permitted16 a then (true, (s.setByte a.toNat (hiByte v)).setByte (a.toNat + 1) (loByte v))
  else (false, s.emit ⟨.write, .bits16, a⟩)

/-! ## The call-stack engine -/

/-- SP as an address (R50). -/
def stackAddr (sp : Byte) : Word := sp.zeroExtend 16

/-- `push(v)` (R101); `none` is overflow, which leaves SP and memory unchanged. -/
def push (v : Word) (s : State) : Option State :=
  if s.sp.toNat + 2 > 0xFE then none
  else some (write16 (stackAddr (s.sp + 2)) v (s.setSp (s.sp + 2))).2

/-- `pop()` (R102): the word read and the state after; `none` is underrun, which leaves SP unchanged. -/
def pop (s : State) : Option (Word × State) :=
  if s.sp = 0xE0 then none
  else
    let (v, s') := read16 (stackAddr s.sp) s
    some (v, s'.setSp (s'.sp - 2))

/-- `peek()` (R103): the top slot, SP unmoved. No instruction uses it; on an empty stack the spec gives it no meaning,
which is the `none` here (log entry 10). -/
def peek (s : State) : Option (Word × State) :=
  if s.sp = 0xE0 then none else some (read16 (stackAddr s.sp) s)

/-! ## The instruction cycle's parts -/

/-- Bytes of an instruction (R81). -/
abbrev instrBytes : Word := 2

/-- Fetch (R80) and the advance of PC (R100, R281): the fetched word, and the state an instruction executes in. A refused
fetch emits its event and gives the sentinel 0xFFFF. -/
def fetch (s : State) : Word × State :=
  let (w, s') := read16 s.pc s
  (w, s'.setPc (s.pc + instrBytes))

/-- The fetch address `a` of the instruction that is executing: PC was advanced past it (R100). DEDUCED, log entry 6. -/
def State.fetchAddr (s : State) : Word := s.pc - instrBytes

/-- Raise a fatal condition (R14, R233): nothing more is written, the run state becomes Halted with the report
{kind, fetch address, fetched word} (R31), and step returns `halt`, which the next state's run state shows (log entry 5).
This is the block's only exception entry; there is no return from it but `reset()` (R237, R238). -/
def raiseFatal (kind : FatalKind) (word : Word) (s : State) : State := s.setRun (.halted ⟨kind, s.fetchAddr, word⟩)

/-- Advance PC over one more word, without fetching it (R114). -/
def skipNext (s : State) : State := s.setPc (s.pc + instrBytes)

/-- Skip the next word when the test holds (R109–R112, R190, R191). -/
def skipIf (test : Bool) (s : State) : State := if test then skipNext s else s

end Sys2Proof.Machine
end

