-- ==== Sys2Proof/Machine/Operands.lean ====
section
/-! DEFINITION. The operand forms: immediates as addresses (R83), effective addresses (R217), the shift operand (R136,
R138), the key a register names (R193), the glyph address (R152), the digits of a byte (R210, R211), the random byte
(R160, R161). -/

namespace Sys2Proof.Machine

/-- `zext_16(nnn)` (R83). -/
def zext16 (nnn : Addr12) : Word := nnn.zeroExtend 16

/-- `trunc_16(a + k)`: the effective address of every data access (R217). -/
def offsetAddr (a : Word) (k : Nat) : Word := a + BitVec.ofNat 16 k

/-- The k-th register, for the loop indexes of the bulk transfers, 0–15 (R22). -/
def regOfNat (k : Nat) : Nibble := BitVec.ofNat 4 k

/-- The operand a shift reads: V[x] with QUIRK_SHIFT_SINGLE, else V[y] (R136, R138). -/
def shiftOperand (x y : Nibble) (s : State) : Byte := if s.quirkShiftSingle then s.getV x else s.getV y

/-- `held(v)` (R193): v names a key, 0–15, and that key is held. -/
def keyHeld (v : Byte) (s : State) : Bool := decide (v.toNat ≤ 15) && s.held.getLsbD v.toNat

/-- The address of the glyph of a register value's low nibble (R152). -/
def glyphAddr (v : Byte) : Word := 0x0090 + 5 * (v &&& 0x0F).zeroExtend 16

/-- The target of JP V0, nnn: not masked to 12 bits (R113). -/
def indexedTarget (nnn : Addr12) (v0 : Byte) : Word := zext16 nnn + v0.zeroExtend 16

/-- `floor(v / 100)` (R210). -/
def hundreds (v : Byte) : Byte := BitVec.ofNat 8 (v.toNat / 100)

/-- `floor(v / 10) mod 10` (R210). -/
def tens (v : Byte) : Byte := BitVec.ofNat 8 (v.toNat / 10 % 10)

/-- `v mod 10` (R210). -/
def ones (v : Byte) : Byte := BitVec.ofNat 8 (v.toNat % 10)

/-- I after a bulk transfer of V0..Vx: past the last byte, unless QUIRK_LDST_NO_INC (R216). -/
def indexAfterBulk (x : Nibble) (s : State) : Word :=
  if s.quirkLdstNoInc then s.i else offsetAddr s.i (x.toNat + 1)

/-- The next random byte: the free value at the count of draws taken so far (R161, log entry 1). -/
def nextDraw (s : State) : Byte := Config.rng s.draws

end Sys2Proof.Machine
end

