-- ==== Sys2Proof/Machine/Flags.lean ====
section
/-! DEFINITION. The flag computations (R23): each from operand values read before any write (R129), and the write of a
result with its flag, the flag last. -/

namespace Sys2Proof.Machine

/-- A flag as the value of VF: 1 or 0. -/
def flagByte (f : Bool) : Byte := if f then 1 else 0

/-- The carry of `a + b`: the exact sum passes 0xFF (R134). -/
def carryOf (a b : Byte) : Bool := decide (a.toNat + b.toNat > 0xFF)

/-- No borrow in `a - b`: a ≥ b (R135, R137, C7). -/
def noBorrowOf (a b : Byte) : Bool := decide (a.toNat ≥ b.toNat)

/-- The bit a right shift by one shifts out: bit 0 (R136). -/
def shiftedOutRight (a : Byte) : Bool := a.getLsbD 0

/-- The bit a left shift by one shifts out: bit 7 (R138). -/
def shiftedOutLeft (a : Byte) : Bool := a.getLsbD 7

/-- Write the result to V[x] first and VF last, so that with x = 0xF the flag stays (R129, R280). -/
def setWithFlag (x : Nibble) (result : Byte) (flag : Bool) (s : State) : State :=
  (s.setV x result).setV regF (flagByte flag)

end Sys2Proof.Machine
end

