-- ==== Sys2Proof/Machine/Alu.lean ====
section
/-! DEFINITION. The register-register instructions (42_alu.md). A flag is computed from the operands before any write and
written last (R129). -/

namespace Sys2Proof.Machine

/-- LD Vx, Vy (R130). -/
def execLdReg (x y : Nibble) (s : State) : Result := .next (s.setV x (s.getV y))

/-- OR Vx, Vy (R131): no flag. -/
def execOrReg (x y : Nibble) (s : State) : Result := .next (s.setV x (s.getV x ||| s.getV y))

/-- AND Vx, Vy (R132): no flag. -/
def execAndReg (x y : Nibble) (s : State) : Result := .next (s.setV x (s.getV x &&& s.getV y))

/-- XOR Vx, Vy (R133): no flag. -/
def execXorReg (x y : Nibble) (s : State) : Result := .next (s.setV x (s.getV x ^^^ s.getV y))

/-- ADD Vx, Vy (R134): VF is the carry. -/
def execAddReg (x y : Nibble) (s : State) : Result :=
  .next (setWithFlag x (s.getV x + s.getV y) (carryOf (s.getV x) (s.getV y)) s)

/-- SUB Vx, Vy (R135): Vx − Vy; VF is no-borrow. -/
def execSubReg (x y : Nibble) (s : State) : Result :=
  .next (setWithFlag x (s.getV x - s.getV y) (noBorrowOf (s.getV x) (s.getV y)) s)

/-- SHR Vx, Vy (R136): VF is the bit shifted out. -/
def execShrReg (x y : Nibble) (s : State) : Result :=
  .next (setWithFlag x (shiftOperand x y s >>> 1) (shiftedOutRight (shiftOperand x y s)) s)

/-- SUBN Vx, Vy (R137): Vy − Vx; VF is no-borrow. -/
def execSubnReg (x y : Nibble) (s : State) : Result :=
  .next (setWithFlag x (s.getV y - s.getV x) (noBorrowOf (s.getV y) (s.getV x)) s)

/-- SHL Vx, Vy (R138): VF is the bit shifted out. -/
def execShlReg (x y : Nibble) (s : State) : Result :=
  .next (setWithFlag x (shiftOperand x y s <<< 1) (shiftedOutLeft (shiftOperand x y s)) s)

end Sys2Proof.Machine
end

