-- ==== Sys2Proof/Machine/Bulk.lean ====
section
/-! DEFINITION. BCD store and bulk transfer (48_bcd_bulk.md). Each byte is one checked access of its own; a refused one is
skipped (write) or reads 0xFF, and the others proceed (R59, D28). -/

namespace Sys2Proof.Machine

/-- LD B, Vx (R210): hundreds, tens and ones to I, I + 1 and I + 2; I is unchanged. -/
def execLdBcd (x : Nibble) (s : State) : Result :=
  let v := s.getV x
  let s1 := (write8 (offsetAddr s.i 0) (hundreds v) s).2
  let s2 := (write8 (offsetAddr s.i 1) (tens v) s1).2
  .next (write8 (offsetAddr s.i 2) (ones v) s2).2

/-- Store V0 .. V(n−1) at `base`, V0 first (R212). -/
def storeRegs (base : Word) : Nat → State → State
  | 0, s => s
  | k + 1, s =>
    let t := storeRegs base k s
    (write8 (offsetAddr base k) (t.getV (regOfNat k)) t).2

/-- Load V0 .. V(n−1) from `base`, V0 first (R214). -/
def loadRegs (base : Word) : Nat → State → State
  | 0, s => s
  | k + 1, s =>
    let (b, t) := read8 (offsetAddr base k) (loadRegs base k s)
    t.setV (regOfNat k) b

/-- LD [I], Vx (R212): V0..Vx, then I past them unless the quirk (R216). -/
def execLdStore (x : Nibble) (s : State) : Result :=
  .next ((storeRegs s.i (x.toNat + 1) s).setI (indexAfterBulk x s))

/-- LD Vx, [I] (R214): V0..Vx, then I past them unless the quirk (R216). -/
def execLdLoad (x : Nibble) (s : State) : Result :=
  .next ((loadRegs s.i (x.toNat + 1) s).setI (indexAfterBulk x s))

end Sys2Proof.Machine
end

