-- ==== Sys2Proof/Machine/Display.lean ====
section
/-! DEFINITION. The display engine: clear and the XOR sprite blit with collision and wrap-around (R170–R174), and the
pixel view of the display region (R36). -/

namespace Sys2Proof.Machine

/-- The first address of the display region (R36). -/
abbrev displayBase : Nat := 0x100

/-- Bytes of the display region: 64 × 32 pixels (R36). -/
abbrev displayBytes : Nat := 256

/-- `clear()`: zero the display region (R170). -/
def clearDisplay (s : State) : State := s.setBytes displayBase (List.replicate displayBytes 0)

/-- Pixel (px, py): bit 7 − px mod 8 of byte 0x100 + 8·py + ⌊px / 8⌋ (R36). -/
def State.pixel (s : State) (px py : Nat) : Bool := (s.byteAt (displayBase + 8 * py + px / 8)).getLsbD (7 - px % 8)

/-- XOR one part of a sprite byte into the display byte at `a`; the Bool is the collision so far, set when a 1 of the
display meets a 1 of the part (R171, R174). -/
def xorByte (a : Nat) (p : Byte) (d : Bool × State) : Bool × State :=
  (d.1 || (d.2.byteAt a &&& p != 0), d.2.setByte a (d.2.byteAt a ^^^ p))

/-- One row of `drawSprite` (R171): read the sprite byte of row `r`, then XOR its left part into byte c0 of the display
row and its right part into byte c1, the next one, wrapping within the row. -/
def drawRow (xc yc : Byte) (addr : Word) (r : Nat) (d : Bool × State) : Bool × State :=
  let col := xc.toNat % 64
  let sh := col % 8
  let c0 := col / 8
  let c1 := (c0 + 1) % 8
  let row := (yc.toNat + r) % 32
  let (b, s) := read8 (offsetAddr addr r) d.2
  let d := xorByte (displayBase + 8 * row + c0) (b >>> sh) (d.1, s)
  xorByte (displayBase + 8 * row + c1) (b <<< (8 - sh)) d

/-- `drawSprite(xc, yc, addr, rows)` (R171): rows 0, 1, … in order, each read after the row before was written. The Bool
is `hit`. -/
def drawSprite (xc yc : Byte) (addr : Word) : Nat → State → Bool × State
  | 0, s => (false, s)
  | r + 1, s => drawRow xc yc addr r (drawSprite xc yc addr r s)

end Sys2Proof.Machine
end

