-- ==== Sys2Proof/Machine/ControlFlow.lean ====
section
/-! DEFINITION. The control-flow instructions (40_control_flow.md). Each runs in the state `fetch` leaves, PC already
advanced (R100, R281). -/

namespace Sys2Proof.Machine

/-- CLS (R104). -/
def execCls (s : State) : Result := .next (clearDisplay s)

/-- RET (R105): PC from the stack, or StackUnderrun on an empty stack, with nothing else changed (R234). -/
def execRet (ign : Nibble) (s : State) : Result :=
  match pop s with
  | none => .next (raiseFatal .stackUnderrun (encode (.ret ign)) s)
  | some (r, s') => .next (s'.setPc r)

/-- JP nnn (R106): the jump is made, and a target equal to the jump's own address also enters the self-jump pause. -/
def execJp (nnn : Addr12) (s : State) : Result :=
  let t := s.setPc (zext16 nnn)
  .next (if zext16 nnn = s.fetchAddr then t.setRun .pausedOnSelfJump else t)

/-- CALL nnn (R108): push the advanced PC and jump, or StackOverflow on a full stack, with nothing else changed (R234). -/
def execCall (nnn : Addr12) (s : State) : Result :=
  match push s.pc s with
  | none => .next (raiseFatal .stackOverflow (encode (.call nnn)) s)
  | some s' => .next (s'.setPc (zext16 nnn))

/-- SE Vx, kk (R109). -/
def execSeImm (x : Nibble) (kk : Byte) (s : State) : Result := .next (skipIf (s.getV x == kk) s)

/-- SNE Vx, kk (R110). -/
def execSneImm (x : Nibble) (kk : Byte) (s : State) : Result := .next (skipIf (s.getV x != kk) s)

/-- SE Vx, Vy (R111). -/
def execSeReg (x y : Nibble) (s : State) : Result := .next (skipIf (s.getV x == s.getV y) s)

/-- SNE Vx, Vy (R112). -/
def execSneReg (x y : Nibble) (s : State) : Result := .next (skipIf (s.getV x != s.getV y) s)

/-- JP V0, nnn (R113): always V0, no mask, no self-jump test (R107). -/
def execJpV0 (nnn : Addr12) (s : State) : Result := .next (s.setPc (indexedTarget nnn (s.getV 0)))

end Sys2Proof.Machine
end

