-- ==== Sys2Proof/Machine/Draw.lean ====
section
/-! DEFINITION. The drawing instruction (45_draw.md). -/

namespace Sys2Proof.Machine

/-- DRW Vx, Vy, n (R175): coordinates read before VF is written; VF is the collision, written after all rows. -/
def execDrw (x y n : Nibble) (s : State) : Result :=
  let (hit, t) := drawSprite (s.getV x) (s.getV y) s.i n.toNat s
  .next (t.setV regF (flagByte hit))

end Sys2Proof.Machine
end

