-- ==== Sys2Proof/Machine/Input.lean ====
section
/-! DEFINITION. The input instructions (46_input.md). -/

namespace Sys2Proof.Machine

/-- SKP Vx (R190). -/
def execSkp (x : Nibble) (s : State) : Result := .next (skipIf (keyHeld (s.getV x) s) s)

/-- SKNP Vx (R191). -/
def execSknp (x : Nibble) (s : State) : Result := .next (skipIf (!keyHeld (s.getV x) s) s)

/-- LD Vx, K (R192): wait for a key press, which writes V[x] later (R242). -/
def execLdKey (x : Nibble) (s : State) : Result := .next (s.setRun (.pausedOnKeyWait x))

end Sys2Proof.Machine
end

