-- ==== Sys2Proof/Machine/Random.lean ====
section
/-! DEFINITION. The random instruction (44_random.md). -/

namespace Sys2Proof.Machine

/-- RND Vx, kk (R160): a fresh draw, a free value (R161, log entry 1), masked by kk. -/
def execRnd (x : Nibble) (kk : Byte) (s : State) : Result := .next ((s.setV x (nextDraw s &&& kk)).countDraw)

end Sys2Proof.Machine
end

