-- ==== Sys2Proof/Machine/Timers.lean ====
section
/-! DEFINITION. The timer instructions (47_timers.md). None touches the accumulator (R201, R202). -/

namespace Sys2Proof.Machine

/-- LD Vx, DT (R200). -/
def execLdFromDt (x : Nibble) (s : State) : Result := .next (s.setV x s.dt)

/-- LD DT, Vx (R201). -/
def execLdToDt (x : Nibble) (s : State) : Result := .next (s.setDt (s.getV x))

/-- LD ST, Vx (R202). -/
def execLdToSt (x : Nibble) (s : State) : Result := .next (s.setSt (s.getV x))

end Sys2Proof.Machine
end

