-- ==== Sys2Proof/Machine/Step.lean ====
section
/-! DEFINITION. The step of R100, and the placing of a word where step fetches. -/

namespace Sys2Proof.Machine

/-- `step()` (R100, R261): in Running, fetch, advance PC, decode, execute, or halt with UnknownOpcode when the word is no
instruction (R235); in a pause nothing executes; in Halted nothing changes (R238). The word `continue` or `halt` that it
returns is `State.signal` of the next state (log entry 5). -/
def step (s : State) : Host.Outcome State Fault Refusal :=
  match s.run with
  | .running =>
    let (w, t) := fetch s
    match decode w with
    | some i => exec i t
    | none => .next (raiseFatal .unknownOpcode w t)
  | .pausedOnSelfJump => .next s
  | .pausedOnKeyWait _ => .next s
  | .halted _ => .next s

/-- The state with an instruction word, its bits numbered as the opcode table numbers them, stored big-endian at PC, and
Running, so that the next step fetches and runs it. It stands for `loadProgram` (log entry 9). -/
def State.withFetchWord (s : State) (nbits w : Nat) : State :=
  ((s.setByte s.pc.toNat (hiByte (tableWord nbits w))).setByte (s.pc.toNat + 1) (loByte (tableWord nbits w))).setRun
    .running

end Sys2Proof.Machine
end

