-- ==== Sys2Proof/WellFormed.lean ====
section
/-! DEFINITION. The checks on what is written or handed to the block. An operand of `Instr` has exactly the width of its
field, so every term of `Instr` encodes to a word (R22, R83) and no width check is left to state; what can be ill-formed
is an instruction's assembler form (R95), a key number (R240) and a program image's length (R273). -/

namespace Sys2Proof

/-- Whether R95's assembler syntax writes this instruction: every term but a CLS or RET whose ignored bits 11:8 are not
zero. Such a word still decodes and executes as CLS or RET (R86); no meaning reads this check. -/
def Instr.isAssembled : Instr → Bool
  | .cls ign => ign == 0
  | .ret ign => ign == 0
  | .jp _ | .call _ | .seImm _ _ | .sneImm _ _ | .seReg _ _ | .ldImm _ _ | .addImm _ _ => true
  | .ldReg _ _ | .orReg _ _ | .andReg _ _ | .xorReg _ _ | .addReg _ _ | .subReg _ _ => true
  | .shrReg _ _ | .subnReg _ _ | .shlReg _ _ | .sneReg _ _ | .ldI _ | .jpV0 _ | .rnd _ _ => true
  | .drw _ _ _ | .skp _ | .sknp _ | .ldFromDt _ | .ldKey _ | .ldToDt _ | .ldToSt _ | .addI _ => true
  | .ldF _ | .ldBcd _ | .ldStore _ | .ldLoad _ => true

/-- A key number of the interface contract: 0–15 (R240, R264, D12). -/
def keyNumberOk (k : Nat) : Bool := decide (k < 16)

/-- A program image that fits program space: at most 3583 bytes (R273, D25). -/
def imageFits (bytes : List Byte) : Bool := decide (bytes.length ≤ Config.programBytes)

end Sys2Proof
end

