-- ==== Sys2Proof/Machine/Transactions.lean ====
section
/-! DEFINITION. The host's transactions beside `step` (R260): construct, loadProgram, reset, tick, deliverKeyEvent and the
observations. Each is performed whole between two steps (R70). -/

namespace Sys2Proof.Machine

/-- First address of the font region (R38). -/
abbrev fontBase : Nat := 0x090

/-- First address of program space, and the entry point (R39, R67). -/
abbrev programBase : Nat := 0x200

/-- Construct the block with its quirk bits and FONT (R46, R272). -/
def State.powerOn (shiftSingle ldstNoInc : Bool) (font : Vector Byte 80) : State :=
  ({ State.reset with quirkShiftSingle := shiftSingle, quirkLdstNoInc := ldstNoInc, font := font } : State).setBytes
    fontBase font.toList

/-- `loadProgram(bytes)` (R273): copy the image to program space, or ResourceLoadFailure with nothing written (R232). -/
def loadProgram (bytes : List Byte) (s : State) : Result :=
  if imageFits bytes then .next (s.setBytes programBase bytes) else .fault .resourceLoadFailure

/-- `reset()` (R270): display cleared, font reloaded, PC, SP, timers and ACC at their initial values, Running; V0–VF, I,
the stack bytes, program space, the held keys, the quirk bits and the diagnostic output are unchanged (R47). -/
def resetBlock (s : State) : State :=
  ((((((((clearDisplay s).setBytes fontBase s.font.toList).setPc 0x0200).setSp 0xE0).setDt 0x00).setSt 0x00).setAcc
    0).setRun .running)

/-- Whole frame intervals elapsed once `ms` more milliseconds have accumulated (R250). -/
def framesElapsed (ms : Nat) (s : State) : Nat := (s.acc + Config.unitsPerMs * ms) / Config.unitsPerFrame

/-- A timer counted down by `k`, floored at zero (R251). -/
def countDown (t : Byte) (k : Nat) : Byte := BitVec.ofNat 8 (t.toNat - k)

/-- `tick(ms)` (R250): both timers counted down by the whole intervals elapsed, in every run state (R253). -/
def tick (ms : Nat) (s : State) : State :=
  ((s.setDt (countDown s.dt (framesElapsed ms s))).setSt (countDown s.st (framesElapsed ms s))).setAcc
    ((s.acc + Config.unitsPerMs * ms) % Config.unitsPerFrame)

/-- The held-key set after key `k` is pressed or released (R32, R240). -/
def heldAfter (k : Nat) (pressed : Bool) (h : BitVec 16) : BitVec 16 :=
  if pressed then h ||| BitVec.twoPow 16 k else h &&& ~~~BitVec.twoPow 16 k

/-- What a key event does to the run state, the held set being updated (R240–R242). -/
def wakeOnKey (k : Nat) (pressed : Bool) (s : State) : State :=
  match s.run with
  | .running => s
  | .pausedOnSelfJump => s.setRun .running
  | .pausedOnKeyWait x => if pressed then (s.setV x (BitVec.ofNat 8 k)).setRun .running else s
  | .halted _ => s

/-- `deliverKeyEvent(k, pressed)` (R240); a key number outside 0–15 is refused by name (D12, log entry 8). -/
def deliverKeyEvent (k : Nat) (pressed : Bool) (s : State) : Result :=
  if keyNumberOk k then .next (wakeOnKey k pressed (s.setHeld (heldAfter k pressed s.held)))
  else .refused (.keyOutsideContract k)

/-! ## Observations -/

/-- What `step()` returns (R100, R260). -/
inductive StepSignal where
  | continue
  | halt
deriving DecidableEq, Repr

/-- The result of the step that led to this state: `halt` exactly when it is Halted (R100, log entry 5). -/
def State.signal (s : State) : StepSignal :=
  match s.run with
  | .halted _ => .halt
  | .running | .pausedOnSelfJump | .pausedOnKeyWait _ => .continue

/-- `isPaused()` (R263). -/
def State.isPaused (s : State) : Bool :=
  match s.run with
  | .pausedOnSelfJump | .pausedOnKeyWait _ => true
  | .running | .halted _ => false

/-- `isAwaitingKey()` (R263). -/
def State.isAwaitingKey (s : State) : Bool :=
  match s.run with
  | .pausedOnKeyWait _ => true
  | .running | .pausedOnSelfJump | .halted _ => false

/-- The halt report, when Halted (R31, R260). -/
def State.haltReport (s : State) : Option HaltReport :=
  match s.run with
  | .halted r => some r
  | .running | .pausedOnSelfJump | .pausedOnKeyWait _ => none

/-- `snapshotDisplay()` (R262): the 256 display bytes, in address order. -/
def State.snapshotDisplay (s : State) : List Byte := memReadBytes s.mem displayBase displayBytes

/-! ## The host's schedule -/

/-- A transaction that can change the state once the block is constructed (R260). -/
inductive Transaction where
  | step
  | tick (ms : Nat)
  | keyEvent (k : Nat) (pressed : Bool)
  | reset
  | load (bytes : List Byte)
deriving DecidableEq, Repr

/-- Perform one transaction. -/
def transact : Transaction → State → Result
  | .step, s => step s
  | .tick ms, s => .next (tick ms s)
  | .keyEvent k pressed, s => deliverKeyEvent k pressed s
  | .reset, s => .next (resetBlock s)
  | .load bytes, s => loadProgram bytes s

/-- Perform the transactions the host issues, in order (R70), up to the first that is not accepted. The list is free: the
block fixes no rate and no interleaving (R264, D40, log entry 7). -/
def transactAll : List Transaction → State → Result
  | [], s => .next s
  | t :: ts, s =>
    match transact t s with
    | .next s' => transactAll ts s'
    | .fault f => .fault f
    | .refused r => .refused r

end Sys2Proof.Machine
end

