-- ==== Sys2Proof/Safety.lean ====
section
/-! DEFINITION. The terms claims are stated in: the invariant of the block, what a transition leaves unchanged, what each
instruction may write, the events of refused accesses, the sprite's pixels, and the stack as a list. -/

namespace Sys2Proof.Machine

/-! ## The invariant -/

/-- R42: SP is 0xE0 + 2k with k ≤ 15. -/
def spOk (sp : Byte) : Bool := decide (0xE0 ≤ sp.toNat) && decide (sp.toNat % 2 = 0)

/-- Every listed byte lies in one of the four regions: no access of the block writes anywhere else (R35, R52). -/
def memInRegions (m : Memory) : Bool := m.all fun c => tag c.1 != .none

/-- What every transaction keeps: memory in canonical form and inside the regions, SP on a slot (R42), ACC below one frame
interval (R33). -/
structure State.Inv (s : State) : Prop where
  memWf : memWf s.mem = true
  memInRegions : memInRegions s.mem = true
  spOk : spOk s.sp = true
  accLt : s.acc < Config.unitsPerFrame

/-- A safe run state: the run has not been halted by a fatal condition (R233). -/
def State.isHalted (s : State) : Bool := s.haltReport.isSome

/-! ## Frames -/

/-- The independent pieces of the state, memory byte by byte. -/
inductive Component where
  | v (x : Nibble)
  | i
  | pc
  | sp
  | dt
  | st
  | mem (a : Nat)
  | run
  | held
  | acc
  | quirkShiftSingle
  | quirkLdstNoInc
  | font
  | log
  | draws
deriving DecidableEq, Repr

/-- One piece of the state is the same in both states. -/
def Component.Same (c : Component) (s t : State) : Prop :=
  match c with
  | .v x => t.getV x = s.getV x
  | .i => t.i = s.i
  | .pc => t.pc = s.pc
  | .sp => t.sp = s.sp
  | .dt => t.dt = s.dt
  | .st => t.st = s.st
  | .mem a => t.byteAt a = s.byteAt a
  | .run => t.run = s.run
  | .held => t.held = s.held
  | .acc => t.acc = s.acc
  | .quirkShiftSingle => t.quirkShiftSingle = s.quirkShiftSingle
  | .quirkLdstNoInc => t.quirkLdstNoInc = s.quirkLdstNoInc
  | .font => t.font = s.font
  | .log => t.log = s.log
  | .draws => t.draws = s.draws

/-- From `s` to `t` nothing changes but, at most, the listed pieces: every register, every special register, and every
byte of memory not listed reads as before. -/
def ChangesOnly (cs : List Component) (s t : State) : Prop := ∀ c, c ∉ cs → c.Same s t

/-- The bytes of `n` consecutive addresses from `base`. -/
def bytesFrom (base n : Nat) : List Component := (List.range n).map fun k => .mem (base + k)

/-- The bytes a run of `n` 1-byte writes at `base`, `base + 1`, … stores to: the permitted ones (R57, R217). -/
def storedBytes (base : Word) (n : Nat) : List Component :=
  ((List.range n).filter fun k => permitted8 (offsetAddr base k)).map fun k => .mem (offsetAddr base k).toNat

/-- The registers V0 .. V(n−1). -/
def firstRegs (n : Nat) : List Component := (List.range n).map fun k => .v (regOfNat k)

/-- The pieces an instruction may write, as the spec's rules list them: VF and the V registers (R23), I (R24), PC (R25),
SP and the stack slot (R26, R63), DT and ST (R27, R28), the run state (R30), the display (R177), memory (R63), the
diagnostic output of the accesses that can be refused (R236), and the model's draw counter. -/
def footprint (i : Instr) (s : State) : List Component :=
  match i with
  | .cls _ => bytesFrom displayBase displayBytes
  | .ret _ => if s.sp = 0xE0 then [.run] else [.pc, .sp]
  | .jp _ => [.pc, .run]
  | .call _ => if s.sp = 0xFE then [.run] else [.pc, .sp] ++ bytesFrom (s.sp.toNat + 2) 2
  | .seImm _ _ | .sneImm _ _ | .seReg _ _ | .sneReg _ _ | .jpV0 _ | .skp _ | .sknp _ => [.pc]
  | .ldImm x _ | .addImm x _ | .ldReg x _ | .orReg x _ | .andReg x _ | .xorReg x _ | .ldFromDt x => [.v x]
  | .addReg x _ | .subReg x _ | .shrReg x _ | .subnReg x _ | .shlReg x _ => [.v x, .v regF]
  | .ldI _ | .addI _ | .ldF _ => [.i]
  | .rnd x _ => [.v x, .draws]
  | .drw _ _ _ => [.v regF, .log] ++ bytesFrom displayBase displayBytes
  | .ldKey _ => [.run]
  | .ldToDt _ => [.dt]
  | .ldToSt _ => [.st]
  | .ldBcd _ => [.log] ++ storedBytes s.i 3
  | .ldStore x => [.i, .log] ++ storedBytes s.i (x.toNat + 1)
  | .ldLoad x => [.i, .log] ++ firstRegs (x.toNat + 1)

/-! ## Refused accesses -/

/-- The events of `n` 1-byte accesses at `base`, `base + 1`, …, in order: one for each that is refused (R44, R59). -/
def refusals (access : Access) (base : Word) (n : Nat) : List DiagEvent :=
  ((List.range n).filter fun k => !permitted8 (offsetAddr base k)).map fun k => ⟨access, .bits8, offsetAddr base k⟩

/-- What a 1-byte read gives: the stored byte, or the sentinel 0xFF where the access is refused (R55). -/
def readableByte (s : State) (a : Word) : Byte := if permitted8 a then s.byteAt a.toNat else 0xFF

/-! ## Sprites as pixels -/

/-- Whether row `r` of a sprite drawn at (xc, yc), whose byte is `b`, covers pixel (px, py) with a 1 bit: the pixel is
((xc + j) mod 64, (yc + r) mod 32) for the bit 7 − j of `b`, j = 0..7 (R173). -/
def rowCovers (xc yc : Byte) (r : Nat) (b : Byte) (px py : Nat) : Bool :=
  decide ((yc.toNat + r) % 32 = py) &&
    (List.range 8).any fun j => decide ((xc.toNat % 64 + j) % 64 = px) && b.getLsbD (7 - j)

/-- From `s` to `t` one sprite row is drawn: each covered pixel of the display is inverted, every other pixel is as
before, an event is emitted if the sprite byte's read was refused, and nothing but display bytes and the diagnostic
output changes (R171, R173). -/
structure RowDrawn (xc yc : Byte) (addr : Word) (r : Nat) (s t : State) : Prop where
  pixels : ∀ px < 64, ∀ py < 32,
    t.pixel px py = Bool.xor (s.pixel px py) (rowCovers xc yc r (readableByte s (offsetAddr addr r)) px py)
  events : t.log = s.log ++ if permitted8 (offsetAddr addr r) then [] else [⟨.read, .bits8, offsetAddr addr r⟩]
  frame : ChangesOnly (.log :: bytesFrom displayBase displayBytes) s t

/-- Drawing that row on `s` meets a set pixel with a 1 bit of the sprite (R173, R174). -/
def RowCollides (xc yc : Byte) (addr : Word) (r : Nat) (s : State) : Prop :=
  ∃ px < 64, ∃ py < 32,
    s.pixel px py = true ∧ rowCovers xc yc r (readableByte s (offsetAddr addr r)) px py = true

/-- No sprite byte of the `n` rows at `addr` lies in the display region (R176's condition). -/
def SpriteOffDisplay (addr : Word) (n : Nat) : Prop := ∀ r < n, tag (offsetAddr addr r).toNat ≠ .display

/-! ## The call stack as a list -/

/-- The 16-bit word of the stack slot at `a` (R37). -/
def slotWord (s : State) (a : Nat) : Word := wordOfBytes (s.byteAt a) (s.byteAt (a + 1))

/-- The return addresses on the stack, oldest first: the slots 0xE2, 0xE4, …, SP (R26, R41). -/
def stackList (s : State) : List Word :=
  (List.range ((s.sp.toNat - 0xE0) / 2)).map fun k => slotWord s (0xE0 + 2 * (k + 1))

end Sys2Proof.Machine
end

