-- ==== Sys2Proof/Certificates/Slice0/Obligations.lean ====
section
/-! DEFINITION. The statements of this slice. Each docstring names the spec's sentence it formalises; where it rests on a
decision of the spec (92_eei_decisions.md) or on a choice of the model (a log entry) it says so. In a statement about one
instruction, `s` is the state the instruction executes in: PC is already past it (R100, R281). -/

open Sys2Proof Sys2Proof.Machine

/-! ## Encoding -/

/-- Decoding the word of any instruction, with every operand at every value, gives the instruction back (30_encoding.md §2
and §3; the opcode numbers are decision D1). -/
def Obligations.DecodeOfEncode : Prop := ∀ i : Instr, decode (encode i) = some i

/-- The other direction: a word that decodes to an instruction is that instruction's word, so no bit of a decoded word is
lost (30_encoding.md §3; the bits CLS and RET ignore are kept as an operand, log entry 6). -/
def Obligations.DecodedWordIsEncoded : Prop := ∀ (w : Word) (i : Instr), decode w = some i → encode i = w

/-- Exactly the words of R87's list are Unknown, bit positions as numbers (R87, which decision D7 settles for op 0x0). -/
def Obligations.UnknownSpaceIsTheListedWords : Prop :=
  ∀ w : Word, decode w = none ↔
    (w.toNat / 4096 = 0x0 ∧ w.toNat % 256 ≠ 0xE0 ∧ w.toNat % 256 ≠ 0xEE) ∨
    ((w.toNat / 4096 = 0x5 ∨ w.toNat / 4096 = 0x9) ∧ w.toNat % 16 ≠ 0) ∨
    (w.toNat / 4096 = 0x8 ∧ w.toNat % 16 ∈ [0x8, 0x9, 0xA, 0xB, 0xC, 0xD, 0xF]) ∨
    (w.toNat / 4096 = 0xE ∧ w.toNat % 256 ≠ 0x9E ∧ w.toNat % 256 ≠ 0xA1) ∨
    (w.toNat / 4096 = 0xF ∧ w.toNat % 256 ∉ [0x07, 0x0A, 0x15, 0x18, 0x1E, 0x29, 0x33, 0x55, 0x65])

/-- "Every instruction is exactly 16 bits (2 bytes)" (R81): whatever the bytes, decoding an instruction from them consumes
two, and what it depends on is those two, the first being the more significant (R61). -/
def Obligations.EveryInstructionIsTwoBytes : Prop :=
  ∀ (bytes rest : List Byte) (i : Instr),
    decodeBytes bytes = .ok (i, rest) ↔ ∃ hi lo, bytes = hi :: lo :: rest ∧ decode (hi ++ lo) = some i

/-- The source's words and one word of each family decode as 30_encoding.md §3 and 95_test_vectors.md §2.2 say. -/
def Obligations.SampleWordsDecode : Prop :=
  decode 0x1204 = some (.jp 0x204) ∧ decode 0x6A05 = some (.ldImm 0xA 0x05) ∧ decode 0xFA33 = some (.ldBcd 0xA) ∧
  decode 0x5123 = none ∧ decode 0x00E0 = some (.cls 0) ∧ decode 0x01E0 = some (.cls 1) ∧
  decode 0x0FEE = some (.ret 0xF) ∧ decode 0x0123 = none ∧ decode 0x9120 = some (.sneReg 1 2) ∧
  decode 0x812E = some (.shlReg 1 2) ∧ decode 0xA300 = some (.ldI 0x300) ∧ decode 0xC30F = some (.rnd 3 0x0F) ∧
  decode 0xD015 = some (.drw 0 1 5) ∧ decode 0xE29E = some (.skp 2) ∧ decode 0xF107 = some (.ldFromDt 1) ∧
  decode 0xF265 = some (.ldLoad 2) ∧ decode 0xFFFF = none

/-! ## Memory access controller -/

/-- The region tags (R51): the five clauses exclude one another, and every address has exactly one tag. -/
def Obligations.RegionTagTable : Prop :=
  ∀ a : Nat,
    (tag a = .font ↔ 0x090 ≤ a ∧ a ≤ 0x0DF) ∧ (tag a = .stack ↔ 0x0E0 ≤ a ∧ a ≤ 0x0FF) ∧
    (tag a = .display ↔ 0x100 ≤ a ∧ a ≤ 0x1FF) ∧ (tag a = .program ↔ 0x200 ≤ a ∧ a ≤ 0xFFE) ∧
    (tag a = .none ↔ a < 0x090 ∨ 0xFFE < a)

/-- The checked reads (R55, R56): the stored byte, or bytes big-endian, where the access is permitted; otherwise the
sentinel and one event, nothing else changed. -/
def Obligations.CheckedReads : Prop :=
  ∀ (s : State) (a : Word),
    (read8 a s = if tag a.toNat = .none then (0xFF, { s with log := s.log ++ [⟨.read, .bits8, a⟩] })
      else (s.byteAt a.toNat, s)) ∧
    (read16 a s = if tag a.toNat = .none ∨ tag (a.toNat + 1) ≠ tag a.toNat
      then (0xFFFF, { s with log := s.log ++ [⟨.read, .bits16, a⟩] })
      else (s.byteAt a.toNat ++ s.byteAt (a.toNat + 1), s))

/-- The checked 1-byte write (R57): it succeeds exactly in a region, and then that byte reads as written and nothing else
changes; refused, it writes nothing and emits one event. -/
def Obligations.CheckedByteWrite : Prop :=
  ∀ (s : State) (a : Word) (v : Byte), memWf s.mem = true →
    if tag a.toNat = .none then write8 a v s = (false, { s with log := s.log ++ [⟨.write, .bits8, a⟩] })
    else ∃ t, write8 a v s = (true, t) ∧ t.byteAt a.toNat = v ∧ ChangesOnly [.mem a.toNat] s t

/-- The checked 2-byte write (R58; "neither byte written" is decision D37): big-endian, all or nothing. -/
def Obligations.CheckedWordWrite : Prop :=
  ∀ (s : State) (a : Word) (v : Word), memWf s.mem = true →
    if tag a.toNat = .none ∨ tag (a.toNat + 1) ≠ tag a.toNat
    then write16 a v s = (false, { s with log := s.log ++ [⟨.write, .bits16, a⟩] })
    else ∃ t, write16 a v s = (true, t) ∧ (t.byteAt a.toNat).toNat = v.toNat / 256 ∧
      (t.byteAt (a.toNat + 1)).toNat = v.toNat % 256 ∧ ChangesOnly [.mem a.toNat, .mem (a.toNat + 1)] s t

/-- R54: a 2-byte access is permitted exactly where its 1-byte access is, except at 0x0DF, 0x0FF, 0x1FF and 0xFFE; and at
0x08F neither is permitted. -/
def Obligations.TwoByteSpansStayInOneRegion : Prop :=
  (∀ a : Word, permitted16 a = true ↔
    permitted8 a = true ∧ a ≠ 0x0DF ∧ a ≠ 0x0FF ∧ a ≠ 0x1FF ∧ a ≠ 0xFFE) ∧
  (∀ a : Word, permitted16 a = true ↔ tag a.toNat ≠ .none ∧ tag (a.toNat + 1) = tag a.toNat) ∧
  permitted8 0x08F = false ∧ permitted8 0x0DF = true ∧ permitted8 0x0FF = true ∧ permitted8 0x1FF = true ∧
  permitted8 0xFFE = true

/-- "When read16(a) is permitted, read16(a) = read8(a) ++ read8(a + 1)" (20_memory.md §3, the mixed-width view), and both
byte reads are permitted. -/
def Obligations.WordReadIsTwoByteReads : Prop :=
  ∀ (s : State) (a : Word), permitted16 a = true →
    (read16 a s).1 = (read8 a s).1 ++ (read8 (a + 1) s).1 ∧ (read16 a s).2 = s ∧ (read8 a s).2 = s ∧
    (read8 (a + 1) s).2 = s

/-! ## The instruction cycle -/

/-- In Running, when the two bytes at a fetchable PC decode to an instruction, the step is that instruction executed with
PC advanced by 2 (40_control_flow.md §1; that fetch is checked is decision D4). -/
def Obligations.StepRunsDecodedInstruction : Prop :=
  ∀ (s : State) (i : Instr), s.run = .running → permitted16 s.pc = true →
    decode (s.byteAt s.pc.toNat ++ s.byteAt (s.pc.toNat + 1)) = some i →
    step s = exec i { s with pc := s.pc + 2 }

/-- In Running, when the word at PC is Unknown, the step halts with UnknownOpcode, the fetch address and the word, PC is
advanced by 2, and nothing else changes; where the fetch itself is refused, the word is 0xFFFF and one event comes first
(40_control_flow.md §1, 60_exceptions.md §1 and §2; decisions D4 and D22). -/
def Obligations.UnknownWordHalts : Prop :=
  ∀ s : State, s.run = .running →
    (permitted16 s.pc = false →
      step s = .next { s with
        log := s.log ++ [⟨.read, .bits16, s.pc⟩]
        pc := s.pc + 2
        run := .halted ⟨.unknownOpcode, s.pc, 0xFFFF⟩ }) ∧
    (permitted16 s.pc = true → decode (s.byteAt s.pc.toNat ++ s.byteAt (s.pc.toNat + 1)) = none →
      step s = .next { s with
        pc := s.pc + 2
        run := .halted ⟨.unknownOpcode, s.pc, s.byteAt s.pc.toNat ++ s.byteAt (s.pc.toNat + 1)⟩ })

/-- In either pause state and in Halted a step changes nothing; the host sees `continue` in the pauses and `halt` in Halted
(40_control_flow.md §1, decision D17; how the signal is read is log entry 5). -/
def Obligations.PausedAndHaltedStepsDoNothing : Prop :=
  ∀ s : State, s.run ≠ .running →
    step s = .next s ∧ (s.signal = .halt ↔ s.haltReport.isSome = true) ∧ (s.signal = .continue ↔ s.isPaused = true)

/-- Every step of every state answers a next state: no instruction, word, address or run state stops the model
(30_encoding.md §4: no encoding's behaviour is undefined; 60_exceptions.md §1: the fatal conditions are Halted states). -/
def Obligations.StepAlwaysAnswersNext : Prop := ∀ s : State, ∃ t, step s = .next t

/-- Faults are precise (60_exceptions.md §2): a step that halts a running block has changed nothing but PC, advanced by 2,
the run state and, for a refused fetch, the diagnostic output; the report holds the fetch address and the fetched word. -/
def Obligations.HaltIsPrecise : Prop :=
  ∀ (s t : State) (r : HaltReport), s.run = .running → step s = .next t → t.run = .halted r →
    ChangesOnly [.pc, .run, .log] s t ∧ t.pc = s.pc + 2 ∧ r.address = s.pc ∧ r.word = (read16 s.pc s).1 ∧
    t.log = s.log ++ (if permitted16 s.pc then [] else [⟨.read, .bits16, s.pc⟩]) ∧
    (r.kind = .unknownOpcode ↔ decode r.word = none)

/-! ## Control flow -/

/-- CLS (R104): every display byte becomes 0x00 and nothing else changes; `snapshotDisplay()` is then 256 zero bytes. -/
def Obligations.ClsClearsTheDisplay : Prop :=
  ∀ (s : State) (ign : Nibble), memWf s.mem = true →
    ∃ t, exec (.cls ign) s = .next t ∧ (∀ a, 0x100 ≤ a → a ≤ 0x1FF → t.byteAt a = 0x00) ∧
      t.snapshotDisplay = List.replicate 256 0x00 ∧ ChangesOnly (bytesFrom 0x100 256) s t

/-- RET (R105) with the pop of R102: with return addresses on the stack PC becomes the slot's big-endian word and SP
retreats by 2; on the empty stack SP and PC stay and the run halts with StackUnderrun. -/
def Obligations.RetPopsOrUnderruns : Prop :=
  ∀ (s : State) (ign : Nibble), spOk s.sp = true →
    ∃ t, exec (.ret ign) s = .next t ∧
      if s.sp = 0xE0 then (∃ r, t.run = .halted r ∧ r.kind = .stackUnderrun) ∧ ChangesOnly [.run] s t
      else t.pc = s.byteAt s.sp.toNat ++ s.byteAt (s.sp.toNat + 1) ∧ t.sp = s.sp - 2 ∧ ChangesOnly [.pc, .sp] s t

/-- JP nnn (R106), at fetch address `a`: PC becomes nnn, and the run state PausedOnSelfJump exactly when nnn is the jump's
own address; then `isPaused()` is true and the step returns `continue`. That what the step returns is read off the run
state is the model's choice (log entry 5). -/
def Obligations.JpJumpsAndDetectsSelfJump : Prop :=
  ∀ (s : State) (nnn : Addr12) (a : Word), s.pc = a + 2 →
    ∃ t, exec (.jp nnn) s = .next t ∧ t.pc.toNat = nnn.toNat ∧
      t.run = (if a.toNat = nnn.toNat then .pausedOnSelfJump else s.run) ∧
      (a.toNat = nnn.toNat → t.isPaused = true ∧ t.signal = .continue) ∧ ChangesOnly [.pc, .run] s t

/-- CALL nnn (40_control_flow.md §2 and §3): with room on the stack the advanced PC is stored big-endian in the next slot,
SP advances by 2 and PC becomes nnn; on the full stack nothing is written, PC stays, and the run halts with StackOverflow
(decision D21). -/
def Obligations.CallPushesOrOverflows : Prop :=
  ∀ (s : State) (nnn : Addr12), memWf s.mem = true → spOk s.sp = true →
    ∃ t, exec (.call nnn) s = .next t ∧
      if s.sp = 0xFE then (∃ r, t.run = .halted r ∧ r.kind = .stackOverflow) ∧ ChangesOnly [.run] s t
      else t.pc.toNat = nnn.toNat ∧ t.sp = s.sp + 2 ∧ (t.byteAt (s.sp.toNat + 2)).toNat = s.pc.toNat / 256 ∧
        (t.byteAt (s.sp.toNat + 3)).toNat = s.pc.toNat % 256 ∧
        ChangesOnly [.pc, .sp, .mem (s.sp.toNat + 2), .mem (s.sp.toNat + 3)] s t

/-- "CALL addr; ...; RET leaves the program counter equal to the instruction after the original CALL, and the stack pointer
unchanged from before the CALL" (40_control_flow.md §3): whatever runs between, as long as it leaves SP and the two bytes
of the slot as the CALL left them. -/
def Obligations.CallThenRetReturns : Prop :=
  ∀ (s : State) (nnn : Addr12) (ign : Nibble), memWf s.mem = true → spOk s.sp = true → s.sp ≠ 0xFE →
    ∃ t, exec (.call nnn) s = .next t ∧
      ∀ m : State, m.sp = t.sp → m.byteAt t.sp.toNat = t.byteAt t.sp.toNat →
        m.byteAt (t.sp.toNat + 1) = t.byteAt (t.sp.toNat + 1) →
        ∃ u, exec (.ret ign) m = .next u ∧ u.pc = s.pc ∧ u.sp = s.sp ∧ ChangesOnly [.pc, .sp] m u

/-- The stack faults' reports, from the step: kind, fetch address and the word as fetched, ignored bits included; nothing
changes but the run state and PC, which is past the instruction (60_exceptions.md §1; decisions D21, D22; log entry 6). -/
def Obligations.StackFaultsReportTheFetchedWord : Prop :=
  ∀ s : State, s.run = .running → permitted16 s.pc = true →
    let w : Word := s.byteAt s.pc.toNat ++ s.byteAt (s.pc.toNat + 1)
    (w.toNat / 4096 = 0x2 → s.sp = 0xFE →
      step s = .next { s with pc := s.pc + 2, run := .halted ⟨.stackOverflow, s.pc, w⟩ }) ∧
    (w.toNat / 4096 = 0x0 → w.toNat % 256 = 0xEE → s.sp = 0xE0 →
      step s = .next { s with pc := s.pc + 2, run := .halted ⟨.stackUnderrun, s.pc, w⟩ })

/-- The stack engine is a list of at most 15 words, oldest first (10_state.md §6, 40_control_flow.md §2): push appends or,
on 15, overflows; pop takes the last or, on none, underruns; neither touches any other word of the list. -/
def Obligations.StackEngineRefinesAList : Prop :=
  ∀ (s : State) (v : Word), memWf s.mem = true → spOk s.sp = true →
    (stackList s).length ≤ 15 ∧
    (push v s = none ↔ (stackList s).length = 15) ∧
    (∀ t, push v s = some t → stackList t = stackList s ++ [v] ∧ spOk t.sp = true ∧ memWf t.mem = true) ∧
    (pop s = none ↔ stackList s = []) ∧
    (∀ w t, pop s = some (w, t) → stackList s = stackList t ++ [w] ∧ spOk t.sp = true ∧ t.mem = s.mem)

/-- SE and SNE (R109–R112): PC advances over one more word exactly when the test holds; nothing else changes. -/
def Obligations.ConditionalSkips : Prop :=
  ∀ (s : State) (x y : Nibble) (kk : Byte),
    (∃ t, exec (.seImm x kk) s = .next t ∧ t.pc = (if s.getV x = kk then s.pc + 2 else s.pc) ∧ ChangesOnly [.pc] s t) ∧
    (∃ t, exec (.sneImm x kk) s = .next t ∧ t.pc = (if s.getV x ≠ kk then s.pc + 2 else s.pc) ∧
      ChangesOnly [.pc] s t) ∧
    (∃ t, exec (.seReg x y) s = .next t ∧ t.pc = (if s.getV x = s.getV y then s.pc + 2 else s.pc) ∧
      ChangesOnly [.pc] s t) ∧
    (∃ t, exec (.sneReg x y) s = .next t ∧ t.pc = (if s.getV x ≠ s.getV y then s.pc + 2 else s.pc) ∧
      ChangesOnly [.pc] s t)

/-- JP V0, nnn (40_control_flow.md §3, decisions D3 and D18): PC is the exact sum, not masked, and no pause is entered even
at the jump's own address. -/
def Obligations.IndexedJumpAddsV0 : Prop :=
  ∀ (s : State) (nnn : Addr12),
    ∃ t, exec (.jpV0 nnn) s = .next t ∧ t.pc.toNat = nnn.toNat + (s.getV 0).toNat ∧ ChangesOnly [.pc] s t

/-! ## Register-immediate and register-register -/

/-- LD Vx, kk and LD Vx, Vy and ADD Vx, kk (R120, R130, R121): the copy, and the sum modulo 256 with no flag; and R121's
law: adding kk and then 256 − kk mod 256 restores the whole state. -/
def Obligations.LoadsAndImmediateAdd : Prop :=
  ∀ (s : State) (x y : Nibble) (kk : Byte),
    (∃ t, exec (.ldImm x kk) s = .next t ∧ t.getV x = kk ∧ ChangesOnly [.v x] s t) ∧
    (∃ t, exec (.ldReg x y) s = .next t ∧ t.getV x = s.getV y ∧ ChangesOnly [.v x] s t) ∧
    (∃ t, exec (.addImm x kk) s = .next t ∧ (t.getV x).toNat = ((s.getV x).toNat + kk.toNat) % 256 ∧
      ChangesOnly [.v x] s t ∧ exec (.addImm x (BitVec.ofNat 8 ((256 - kk.toNat) % 256))) t = .next s)

/-- OR, AND and XOR (42_alu.md §2): bitwise on the two registers, and VF is left alone unless it is the destination
(decision D10). -/
def Obligations.LogicLeavesTheFlag : Prop :=
  ∀ (s : State) (x y : Nibble),
    (∃ t, exec (.orReg x y) s = .next t ∧ t.getV x = s.getV x ||| s.getV y ∧ ChangesOnly [.v x] s t) ∧
    (∃ t, exec (.andReg x y) s = .next t ∧ t.getV x = s.getV x &&& s.getV y ∧ ChangesOnly [.v x] s t) ∧
    (∃ t, exec (.xorReg x y) s = .next t ∧ t.getV x = s.getV x ^^^ s.getV y ∧ ChangesOnly [.v x] s t)

/-- ADD, SUB and SUBN on registers (R134, R135, R137): the result modulo 256 in V[x] unless x is VF, then VF the carry, or
no-borrow, of the operands before the instruction; nothing else changes. -/
def Obligations.AddAndSubtractWithFlag : Prop :=
  ∀ (s : State) (x y : Nibble),
    let a := (s.getV x).toNat
    let b := (s.getV y).toNat
    (∃ t, exec (.addReg x y) s = .next t ∧ (x ≠ 0xF → (t.getV x).toNat = (a + b) % 256) ∧
      t.getV 0xF = (if a + b > 0xFF then 1 else 0) ∧ ChangesOnly [.v x, .v 0xF] s t) ∧
    (∃ t, exec (.subReg x y) s = .next t ∧ (x ≠ 0xF → (t.getV x).toNat = (a + 256 - b) % 256) ∧
      t.getV 0xF = (if a ≥ b then 1 else 0) ∧ ChangesOnly [.v x, .v 0xF] s t) ∧
    (∃ t, exec (.subnReg x y) s = .next t ∧ (x ≠ 0xF → (t.getV x).toNat = (b + 256 - a) % 256) ∧
      t.getV 0xF = (if b ≥ a then 1 else 0) ∧ ChangesOnly [.v x, .v 0xF] s t)

/-- SHR and SHL (R136, R138): the operand is V[x] under QUIRK_SHIFT_SINGLE and V[y] otherwise; the shifted operand in V[x]
unless x is VF, then VF the bit shifted out; nothing else changes. -/
def Obligations.ShiftsByOneWithFlag : Prop :=
  ∀ (s : State) (x y : Nibble),
    let a := if s.quirkShiftSingle then (s.getV x).toNat else (s.getV y).toNat
    (∃ t, exec (.shrReg x y) s = .next t ∧ (x ≠ 0xF → (t.getV x).toNat = a / 2) ∧
      (t.getV 0xF).toNat = a % 2 ∧ ChangesOnly [.v x, .v 0xF] s t) ∧
    (∃ t, exec (.shlReg x y) s = .next t ∧ (x ≠ 0xF → (t.getV x).toNat = 2 * a % 256) ∧
      (t.getV 0xF).toNat = a / 128 ∧ ChangesOnly [.v x, .v 0xF] s t)

/-! ## Index register and random -/

/-- LD I, nnn and LD F, Vx (R150, R152): I is nnn, or 0x0090 + 5 times the low nibble of V[x]; nothing else changes. -/
def Obligations.IndexLoads : Prop :=
  ∀ (s : State) (x : Nibble) (nnn : Addr12),
    (∃ t, exec (.ldI nnn) s = .next t ∧ t.i.toNat = nnn.toNat ∧ ChangesOnly [.i] s t) ∧
    (∃ t, exec (.ldF x) s = .next t ∧ t.i.toNat = 0x0090 + 5 * ((s.getV x).toNat % 16) ∧ ChangesOnly [.i] s t)

/-- ADD I, Vx (43_index.md; not masked and modulo 2^16 by decisions D3 and D6): the sum, and no flag. -/
def Obligations.IndexAdd : Prop :=
  ∀ (s : State) (x : Nibble),
    ∃ t, exec (.addI x) s = .next t ∧ t.i.toNat = (s.i.toNat + (s.getV x).toNat) % 65536 ∧ ChangesOnly [.i] s t

/-- RND Vx, kk (44_random.md; the draw is decision D13 and the model's free value, log entry 1): V[x] is the next draw
masked by kk, for every value the draws may have, so no bit outside kk is set; the next RND takes a further draw. -/
def Obligations.RandomIsAMaskedFreeDraw : Prop :=
  ∀ (s : State) (x : Nibble) (kk : Byte),
    ∃ t, exec (.rnd x kk) s = .next t ∧ t.getV x = Config.rng s.draws &&& kk ∧ t.draws = s.draws + 1 ∧
      t.getV x &&& ~~~kk = 0 ∧ ChangesOnly [.v x, .draws] s t

/-! ## Drawing -/

/-- DRW Vx, Vy, n in every form (45_draw.md §1 and §2; the order of reads and writes is decision D27): the rows are drawn
one after another, row r on the display the rows before it left, each as the pixel view says; then VF is 1 exactly when
some row met a set pixel; I and every other piece are unchanged. -/
def Obligations.DrwDrawsRowByRow : Prop :=
  ∀ (s : State) (x y n : Nibble), memWf s.mem = true →
    ∃ (t : State) (f : Nat → State), exec (.drw x y n) s = .next t ∧ f 0 = s ∧
      (∀ r < n.toNat, RowDrawn (s.getV x) (s.getV y) s.i r (f r) (f (r + 1))) ∧
      ChangesOnly [.v 0xF] (f n.toNat) t ∧
      ((∃ r < n.toNat, RowCollides (s.getV x) (s.getV y) s.i r (f r)) → t.getV 0xF = 1) ∧
      ((¬ ∃ r < n.toNat, RowCollides (s.getV x) (s.getV y) s.i r (f r)) → t.getV 0xF = 0)

/-- DRW of a sprite outside the display region, all at once (45_draw.md §1, the pixel view and the collision rule): pixel
(px, py) is inverted exactly when the sprite's row (py − yc) mod 32 is below n and covers it, every refused sprite byte
counts as 0xFF and gives one event, in row order, and VF is 1 exactly when an inverted pixel was set. The sentinel row, the
order of the rows and the wrap of a row's right part are decision D27, and n = 0 (nothing drawn, VF 0) is decision D26. -/
def Obligations.DrwInvertsTheSpritePixels : Prop :=
  ∀ (s : State) (x y n : Nibble), memWf s.mem = true → SpriteOffDisplay s.i n.toNat →
    let covers := fun px py => decide (∃ r < n.toNat,
      rowCovers (s.getV x) (s.getV y) r (readableByte s (offsetAddr s.i r)) px py = true)
    ∃ t, exec (.drw x y n) s = .next t ∧
      (∀ px < 64, ∀ py < 32, t.pixel px py = Bool.xor (s.pixel px py) (covers px py)) ∧
      ((∃ px < 64, ∃ py < 32, s.pixel px py = true ∧ t.pixel px py = false) → t.getV 0xF = 1) ∧
      ((¬ ∃ px < 64, ∃ py < 32, s.pixel px py = true ∧ t.pixel px py = false) → t.getV 0xF = 0) ∧
      t.log = s.log ++ refusals .read s.i n.toNat ∧
      ChangesOnly ([.v 0xF, .log] ++ bytesFrom 0x100 256) s t

/-- The double-draw law (45_draw.md §2): the same sprite, outside the display, drawn twice with V[x] and V[y] unchanged
between, restores all of memory exactly, and the second draw's VF is 1 exactly when the first turned some pixel on. -/
def Obligations.DoubleDrawRestoresTheDisplay : Prop :=
  ∀ (s t : State) (x y n : Nibble), memWf s.mem = true → SpriteOffDisplay s.i n.toNat →
    exec (.drw x y n) s = .next t → t.getV x = s.getV x → t.getV y = s.getV y →
    ∃ u, exec (.drw x y n) t = .next u ∧ u.mem = s.mem ∧
      ((∃ px < 64, ∃ py < 32, s.pixel px py = false ∧ t.pixel px py = true) → u.getV 0xF = 1) ∧
      ((¬ ∃ px < 64, ∃ py < 32, s.pixel px py = false ∧ t.pixel px py = true) → u.getV 0xF = 0)

/-! ## Input and timers -/

/-- SKP and SKNP (46_input.md; a value above 15 names no key, decision D11): PC advances over one more word exactly when
the key is held, or is not. -/
def Obligations.KeySkips : Prop :=
  ∀ (s : State) (x : Nibble),
    let isHeld := (s.getV x).toNat ≤ 15 ∧ s.held.getLsbD (s.getV x).toNat = true
    (∃ t, exec (.skp x) s = .next t ∧ ChangesOnly [.pc] s t ∧ (isHeld → t.pc = s.pc + 2) ∧ (¬ isHeld → t.pc = s.pc)) ∧
    (∃ t, exec (.sknp x) s = .next t ∧ ChangesOnly [.pc] s t ∧ (isHeld → t.pc = s.pc) ∧ (¬ isHeld → t.pc = s.pc + 2))

/-- LD Vx, K and what resolves it (46_input.md and 60_exceptions.md §3; decision D19): the wait is entered with nothing else
changed, also when a key is held; then steps and ticks and key releases leave it pending, and a press writes the key number
to V[x], and to nothing else, and resumes. -/
def Obligations.KeyWaitIsResolvedByAPress : Prop :=
  ∀ (s : State) (x : Nibble) (k ms : Nat), k < 16 →
    ∃ t, exec (.ldKey x) s = .next t ∧ t.run = .pausedOnKeyWait x ∧ ChangesOnly [.run] s t ∧
      t.isPaused = true ∧ t.isAwaitingKey = true ∧ step t = .next t ∧ (tick ms t).run = .pausedOnKeyWait x ∧
      (∃ u, deliverKeyEvent k false t = .next u ∧ u.run = .pausedOnKeyWait x ∧ ChangesOnly [.held] t u) ∧
      (∃ u, deliverKeyEvent k true t = .next u ∧ u.run = .running ∧ (u.getV x).toNat = k ∧
        ChangesOnly [.run, .v x, .held] t u)

/-- LD Vx, DT, LD DT, Vx and LD ST, Vx (47_timers.md; that the accumulator is untouched is decision D16): the copies, and
nothing else changes. -/
def Obligations.TimerCopies : Prop :=
  ∀ (s : State) (x : Nibble),
    (∃ t, exec (.ldFromDt x) s = .next t ∧ t.getV x = s.dt ∧ ChangesOnly [.v x] s t) ∧
    (∃ t, exec (.ldToDt x) s = .next t ∧ t.dt = s.getV x ∧ ChangesOnly [.dt] s t) ∧
    (∃ t, exec (.ldToSt x) s = .next t ∧ t.st = s.getV x ∧ ChangesOnly [.st] s t)

/-! ## BCD and bulk transfer -/

/-- LD B, Vx (48_bcd_bulk.md; each byte checked on its own, decision D28): the three decimal digits of V[x], each a plain
byte of at most 9, at I, I + 1 and I + 2 where the write is permitted; a refused one gives its event, in order; I and all
else are unchanged. -/
def Obligations.BcdStoresThreeDigits : Prop :=
  ∀ (s : State) (x : Nibble), memWf s.mem = true →
    ∃ t, exec (.ldBcd x) s = .next t ∧
      (∀ k < 3, permitted8 (s.i + BitVec.ofNat 16 k) = true →
        (t.byteAt (s.i + BitVec.ofNat 16 k).toNat).toNat = (s.getV x).toNat / 10 ^ (2 - k) % 10) ∧
      t.log = s.log ++ refusals .write s.i 3 ∧ ChangesOnly (.log :: storedBytes s.i 3) s t

/-- LD [I], Vx (48_bcd_bulk.md; decision D28): V0..Vx in the bytes from I on that are permitted; a refused one gives its
event, in order; I then moves past them, also after refusals, unless QUIRK_LDST_NO_INC; all else is unchanged. -/
def Obligations.BulkStore : Prop :=
  ∀ (s : State) (x : Nibble), memWf s.mem = true →
    ∃ t, exec (.ldStore x) s = .next t ∧
      (∀ k : Nibble, k ≤ x → permitted8 (s.i + k.zeroExtend 16) = true →
        t.byteAt (s.i + k.zeroExtend 16).toNat = s.getV k) ∧
      t.i.toNat = (if s.quirkLdstNoInc then s.i.toNat else (s.i.toNat + x.toNat + 1) % 65536) ∧
      t.log = s.log ++ refusals .write s.i (x.toNat + 1) ∧
      ChangesOnly ([.i, .log] ++ storedBytes s.i (x.toNat + 1)) s t

/-- LD Vx, [I] (48_bcd_bulk.md; decision D28): V0..Vx are the bytes from I on, 0xFF where the read is refused, which gives
its event, in order; I then moves past them, also after refusals, unless QUIRK_LDST_NO_INC; all else is unchanged. -/
def Obligations.BulkLoad : Prop :=
  ∀ (s : State) (x : Nibble),
    ∃ t, exec (.ldLoad x) s = .next t ∧
      (∀ k : Nibble, k ≤ x → t.getV k =
        if permitted8 (s.i + k.zeroExtend 16) then s.byteAt (s.i + k.zeroExtend 16).toNat else 0xFF) ∧
      (∀ k : Nibble, x < k → t.getV k = s.getV k) ∧
      t.i.toNat = (if s.quirkLdstNoInc then s.i.toNat else (s.i.toNat + x.toNat + 1) % 65536) ∧
      t.log = s.log ++ refusals .read s.i (x.toNat + 1) ∧
      ChangesOnly ([.i, .log] ++ firstRegs (x.toNat + 1)) s t

/-! ## Whole-machine frames -/

/-- No instruction changes anything but its footprint (10_state.md §1–§4, 20_memory.md §3): of the 34, which may write V[x],
VF, I, PC, SP, DT, ST, the run state, which bytes of memory, the diagnostic output. -/
def Obligations.EveryInstructionKeepsToItsFootprint : Prop :=
  ∀ (i : Instr) (s t : State), memWf s.mem = true → spOk s.sp = true → exec i s = .next t →
    ChangesOnly (footprint i s) s t

/-- What nothing in the block reads: ST (10_state.md §3: no instruction reads it), the accumulator (R33: no instruction
reads or writes it) and the diagnostic output (R44: output only). Two states that differ in these alone give next states
that differ in these alone, with the same new events; LD ST, Vx makes ST the same. -/
def Obligations.SoundAccumulatorAndLogAreUnread : Prop :=
  ∀ (i : Instr) (s t : State) (st' : Byte) (acc' : Nat) (log' : List DiagEvent), exec i s = .next t →
    ∃ events, t.log = s.log ++ events ∧ t.acc = s.acc ∧
      exec i { s with st := st', acc := acc', log := log' } =
        .next { t with
          st := match i with
            | .ldToSt _ => t.st
            | _ => st'
          acc := acc'
          log := log' ++ events }

/-- The free value enters by RND alone (44_random.md, log entry 1): the model's draw counter changes no other
instruction's effect, and no other instruction advances it. -/
def Obligations.OnlyRandomReadsTheDraws : Prop :=
  ∀ (i : Instr) (s t : State) (d : Nat), (∀ x kk, i ≠ .rnd x kk) → exec i s = .next t →
    t.draws = s.draws ∧ exec i { s with draws := d } = .next { t with draws := d }

/-! ## Power-on, load and reset -/

/-- Power-on (10_state.md §8; the values the source does not itemise are decision D24) for every choice of the parameters;
and `State.reset` is the power-on state with both quirk bits false and the default FONT (log entries 2 and 3). -/
def Obligations.PowerOnState : Prop :=
  (∀ (q1 q2 : Bool) (font : Vector Byte 80),
    let s := State.powerOn q1 q2 font
    (∀ x, s.getV x = 0x00) ∧ s.i = 0x0000 ∧ s.pc = 0x0200 ∧ s.sp = 0xE0 ∧ s.dt = 0x00 ∧ s.st = 0x00 ∧
    (∀ (k : Nat) (h : k < 80), s.byteAt (0x090 + k) = font[k]) ∧ (∀ a, 0x0E0 ≤ a → s.byteAt a = 0x00) ∧
    s.run = .running ∧ s.held = 0 ∧ s.acc = 0 ∧ s.quirkShiftSingle = q1 ∧ s.quirkLdstNoInc = q2 ∧ s.font = font ∧
    s.log = []) ∧
  State.powerOn false false Config.defaultFont = State.reset

/-- `loadProgram` (70_reset_and_hazards.md §1, decision D25): an image of at most 3583 bytes is copied to 0x200 on and
nothing else changes; a longer one is ResourceLoadFailure. That this failure is a fault outcome with no next state is the
model's choice (log entry 11). -/
def Obligations.LoadProgramCopiesTheImage : Prop :=
  ∀ (s : State) (bytes : List Byte), memWf s.mem = true →
    if bytes.length ≤ 3583 then
      ∃ t, loadProgram bytes s = .next t ∧ (∀ (k : Nat) (h : k < bytes.length), t.byteAt (0x200 + k) = bytes[k]) ∧
        ChangesOnly (bytesFrom 0x200 bytes.length) s t
    else loadProgram bytes s = .fault .resourceLoadFailure

/-- `reset()` (70_reset_and_hazards.md §1; ACC, the run state and what stays are decision D23): the display cleared, FONT
reloaded, PC, SP, DT, ST and ACC at their initial values, Running; every other piece unchanged. -/
def Obligations.ResetTransaction : Prop :=
  ∀ s : State, memWf s.mem = true →
    let t := resetBlock s
    (∀ a, 0x100 ≤ a → a ≤ 0x1FF → t.byteAt a = 0x00) ∧
    (∀ (k : Nat) (h : k < 80), t.byteAt (0x090 + k) = s.font[k]) ∧
    t.pc = 0x0200 ∧ t.sp = 0xE0 ∧ t.dt = 0x00 ∧ t.st = 0x00 ∧ t.acc = 0 ∧ t.run = .running ∧
    ChangesOnly ([.pc, .sp, .dt, .st, .acc, .run] ++ bytesFrom 0x090 80 ++ bytesFrom 0x100 256) s t

/-- With no program loaded the first step halts with UnknownOpcode at 0x200 (70_reset_and_hazards.md §2), whatever the
parameters of construction. -/
def Obligations.NothingLoadedHaltsAtTheEntry : Prop :=
  ∀ (q1 q2 : Bool) (font : Vector Byte 80),
    let s := State.powerOn q1 q2 font
    step s = .next { s with pc := 0x0202, run := .halted ⟨.unknownOpcode, 0x0200, 0x0000⟩ }

/-! ## Timers and key events -/

/-- `tick(ms)` (60_exceptions.md §5, decision D15), in every run state (decision D16): with k whole intervals of 1000 units
in ACC + 60·ms, each timer loses k, floored at zero, and ACC keeps the rest; nothing else changes. -/
def Obligations.TickCountsDown : Prop :=
  ∀ (s : State) (ms : Nat),
    let k := (s.acc + 60 * ms) / 1000
    (tick ms s).dt.toNat = s.dt.toNat - k ∧ (tick ms s).st.toNat = s.st.toNat - k ∧
    (tick ms s).acc = (s.acc + 60 * ms) % 1000 ∧ ChangesOnly [.dt, .st, .acc] s (tick ms s)

/-- Both timers lose the same k in the same tick, floored at zero, and a timer is changed only by its load instruction, by
`tick` and by `reset()`: not by a step whose fetched word is any other, by a key event, or by a load (R251). The k is that
of `tick`, the whole intervals of 1000 units in ACC + 60·ms (60_exceptions.md §5, decision D15). -/
def Obligations.TimersChangeOnlyByLoadTickAndReset : Prop :=
  (∀ (s : State) (ms : Nat),
    let k : Nat := (s.acc + 60 * ms) / 1000
    (tick ms s).dt.toNat = max 0 ((s.dt.toNat : Int) - k) ∧ (tick ms s).st.toNat = max 0 ((s.st.toNat : Int) - k)) ∧
  (∀ s t : State, step s = .next t →
    ((∀ x, decode (read16 s.pc s).1 ≠ some (.ldToDt x)) → t.dt = s.dt) ∧
    ((∀ x, decode (read16 s.pc s).1 ≠ some (.ldToSt x)) → t.st = s.st)) ∧
  (∀ (s t : State) (k : Nat) (pressed : Bool), deliverKeyEvent k pressed s = .next t → t.dt = s.dt ∧ t.st = s.st) ∧
  (∀ (s t : State) (bytes : List Byte), loadProgram bytes s = .next t → t.dt = s.dt ∧ t.st = s.st)

/-- Timer monotonicity (60_exceptions.md §5): over any number of ticks no timer rises, and one at 0 stays 0. -/
def Obligations.TicksNeverRaiseATimer : Prop :=
  ∀ (s : State) (mss : List Nat),
    let t := mss.foldl (fun u ms => tick ms u) s
    t.dt ≤ s.dt ∧ t.st ≤ s.st ∧ (s.dt = 0 → t.dt = 0) ∧ (s.st = 0 → t.st = 0)

/-- Elapsed time adds up (60_exceptions.md §5): two ticks are one tick of their sum, so how the host cuts up the time
between two steps makes no difference. -/
def Obligations.TicksAddUp : Prop := ∀ (s : State) (m n : Nat), tick n (tick m s) = tick (m + n) s

/-- `deliverKeyEvent` (60_exceptions.md §3; decisions D12, D18, D19): the event's key is set in the held set and no other
key; any event ends the self-jump pause; only a press ends a key wait, writing the key number; Running and Halted stay. A
key number outside 0–15 is refused (log entry 8). -/
def Obligations.KeyEventTable : Prop :=
  ∀ (s : State) (k : Nat) (pressed : Bool),
    if k < 16 then
      ∃ t, deliverKeyEvent k pressed s = .next t ∧
        (∀ j < 16, t.held.getLsbD j = if j = k then pressed else s.held.getLsbD j) ∧
        match s.run with
        | .pausedOnSelfJump => t.run = .running ∧ ChangesOnly [.held, .run] s t
        | .pausedOnKeyWait x =>
          if pressed then t.run = .running ∧ t.getV x = BitVec.ofNat 8 k ∧ ChangesOnly [.held, .run, .v x] s t
          else ChangesOnly [.held] s t
        | .running => ChangesOnly [.held] s t
        | .halted _ => ChangesOnly [.held] s t
    else deliverKeyEvent k pressed s = .refused (.keyOutsideContract k)

/-! ## Invariants over every schedule -/

/-- Power-on meets the invariant, whatever the parameters, and so does `State.reset` (10_state.md §6 and §8). -/
def Obligations.PowerOnMeetsTheInvariant : Prop :=
  (∀ (q1 q2 : Bool) (font : Vector Byte 80), (State.powerOn q1 q2 font).Inv) ∧ State.reset.Inv

/-- Every step keeps the invariant: memory in canonical form and inside the regions (20_memory.md §1 and §2), SP on one of
its 16 values (10_state.md §6), ACC below one frame interval (10_state.md §4). -/
def Obligations.StepKeepsTheInvariant : Prop := ∀ s t : State, s.Inv → step s = .next t → t.Inv

/-- Every schedule of the host keeps the invariant: steps, ticks, key events, resets and loads in any order and number
(60_exceptions.md §7: the host may interleave them in any order and at any rate; decision D40, log entry 7). -/
def Obligations.EveryScheduleKeepsTheInvariant : Prop :=
  ∀ (ts : List Transaction) (s t : State), s.Inv → transactAll ts s = .next t → t.Inv

/-- The quirk bits are fixed for the lifetime of a run (R34); and so is FONT, the other parameter of construction, which
`reset()` reloads (10_state.md §8, 60_exceptions.md §7; that State keeps it is the model's form, log entry 3). -/
def Obligations.ConstructionParametersNeverChange : Prop :=
  ∀ (ts : List Transaction) (s t : State), transactAll ts s = .next t →
    t.quirkShiftSingle = s.quirkShiftSingle ∧ t.quirkLdstNoInc = s.quirkLdstNoInc ∧ t.font = s.font

/-- Only `reset()` leaves Halted (60_exceptions.md §2; decisions D17 and D23): under any other transactions the run stays
halted with the same report, and V0–VF, I, PC and SP stay too. -/
def Obligations.HaltedUntilReset : Prop :=
  ∀ (ts : List Transaction) (s t : State) (r : HaltReport), s.run = .halted r → .reset ∉ ts →
    transactAll ts s = .next t → t.run = .halted r ∧ t.v = s.v ∧ t.i = s.i ∧ t.pc = s.pc ∧ t.sp = s.sp

/-- The diagnostic output is an ordered output (10_state.md §7): no transaction removes or alters an event, and only a step
adds any. That `reset()` leaves it is decision D23 (10_state.md §8); that it is held as one unbounded history is the model's
choice (log entry 14). -/
def Obligations.DiagnosticOutputOnlyGrows : Prop :=
  ∀ (tr : Transaction) (s t : State), transact tr s = .next t →
    (∃ events, t.log = s.log ++ events) ∧ (tr ≠ .step → t.log = s.log)

/-- The display changes only by CLS, DRW, a store into it and `reset()` (45_draw.md §2, decision D44). Among the
instructions: any but CLS, DRW, LD B and LD [I] leaves all 256 display bytes, and the font and program space too, as they
were. Among the transactions: any but `reset()`, and but a step in Running that fetches one of those four, leaves the display
as it was. -/
def Obligations.DisplayChangesOnlyByDrawClearAndStore : Prop :=
  (∀ (i : Instr) (s t : State), memWf s.mem = true → spOk s.sp = true → exec i s = .next t →
    (∀ g, i ≠ .cls g) → (∀ x y n, i ≠ .drw x y n) → (∀ x, i ≠ .ldBcd x) → (∀ x, i ≠ .ldStore x) →
    t.snapshotDisplay = s.snapshotDisplay ∧ ∀ a, (a < 0x0E0 ∨ 0x100 ≤ a) → t.byteAt a = s.byteAt a) ∧
  (∀ (tr : Transaction) (s t : State), memWf s.mem = true → spOk s.sp = true → transact tr s = .next t → tr ≠ .reset →
    (tr = .step → s.run = .running → ∀ i, decode (read16 s.pc s).1 = some i →
      (∀ g, i ≠ .cls g) ∧ (∀ x y n, i ≠ .drw x y n) ∧ (∀ x, i ≠ .ldBcd x) ∧ (∀ x, i ≠ .ldStore x)) →
    t.snapshotDisplay = s.snapshotDisplay)
end

