-- ==== Sys2Proof/Laws/State.lean ====
section
/-! SUPPORT. One lemma per field per update of the state, true by rfl, so that no later proof unfolds a record update; and
the register file as a map. -/

namespace Sys2Proof.Machine

variable (s : State)

/-! ### setByte -/

@[simp] theorem State.setByte_v (a : Nat) (b : Byte) : (s.setByte a b).v = s.v := rfl
@[simp] theorem State.setByte_i (a : Nat) (b : Byte) : (s.setByte a b).i = s.i := rfl
@[simp] theorem State.setByte_pc (a : Nat) (b : Byte) : (s.setByte a b).pc = s.pc := rfl
@[simp] theorem State.setByte_sp (a : Nat) (b : Byte) : (s.setByte a b).sp = s.sp := rfl
@[simp] theorem State.setByte_dt (a : Nat) (b : Byte) : (s.setByte a b).dt = s.dt := rfl
@[simp] theorem State.setByte_st (a : Nat) (b : Byte) : (s.setByte a b).st = s.st := rfl
@[simp] theorem State.setByte_mem (a : Nat) (b : Byte) : (s.setByte a b).mem = memWrite s.mem a b := rfl
@[simp] theorem State.setByte_run (a : Nat) (b : Byte) : (s.setByte a b).run = s.run := rfl
@[simp] theorem State.setByte_held (a : Nat) (b : Byte) : (s.setByte a b).held = s.held := rfl
@[simp] theorem State.setByte_acc (a : Nat) (b : Byte) : (s.setByte a b).acc = s.acc := rfl
@[simp] theorem State.setByte_quirkShiftSingle (a : Nat) (b : Byte) : (s.setByte a b).quirkShiftSingle = s.quirkShiftSingle := rfl
@[simp] theorem State.setByte_quirkLdstNoInc (a : Nat) (b : Byte) : (s.setByte a b).quirkLdstNoInc = s.quirkLdstNoInc := rfl
@[simp] theorem State.setByte_font (a : Nat) (b : Byte) : (s.setByte a b).font = s.font := rfl
@[simp] theorem State.setByte_log (a : Nat) (b : Byte) : (s.setByte a b).log = s.log := rfl
@[simp] theorem State.setByte_draws (a : Nat) (b : Byte) : (s.setByte a b).draws = s.draws := rfl
@[simp] theorem State.setByte_getV (a : Nat) (b : Byte) (y : Nibble) : (s.setByte a b).getV y = s.getV y := rfl

/-! ### setBytes -/

@[simp] theorem State.setBytes_v (a : Nat) (bs : List Byte) : (s.setBytes a bs).v = s.v := rfl
@[simp] theorem State.setBytes_i (a : Nat) (bs : List Byte) : (s.setBytes a bs).i = s.i := rfl
@[simp] theorem State.setBytes_pc (a : Nat) (bs : List Byte) : (s.setBytes a bs).pc = s.pc := rfl
@[simp] theorem State.setBytes_sp (a : Nat) (bs : List Byte) : (s.setBytes a bs).sp = s.sp := rfl
@[simp] theorem State.setBytes_dt (a : Nat) (bs : List Byte) : (s.setBytes a bs).dt = s.dt := rfl
@[simp] theorem State.setBytes_st (a : Nat) (bs : List Byte) : (s.setBytes a bs).st = s.st := rfl
@[simp] theorem State.setBytes_mem (a : Nat) (bs : List Byte) : (s.setBytes a bs).mem = memWriteBytes s.mem a bs := rfl
@[simp] theorem State.setBytes_run (a : Nat) (bs : List Byte) : (s.setBytes a bs).run = s.run := rfl
@[simp] theorem State.setBytes_held (a : Nat) (bs : List Byte) : (s.setBytes a bs).held = s.held := rfl
@[simp] theorem State.setBytes_acc (a : Nat) (bs : List Byte) : (s.setBytes a bs).acc = s.acc := rfl
@[simp] theorem State.setBytes_quirkShiftSingle (a : Nat) (bs : List Byte) : (s.setBytes a bs).quirkShiftSingle = s.quirkShiftSingle := rfl
@[simp] theorem State.setBytes_quirkLdstNoInc (a : Nat) (bs : List Byte) : (s.setBytes a bs).quirkLdstNoInc = s.quirkLdstNoInc := rfl
@[simp] theorem State.setBytes_font (a : Nat) (bs : List Byte) : (s.setBytes a bs).font = s.font := rfl
@[simp] theorem State.setBytes_log (a : Nat) (bs : List Byte) : (s.setBytes a bs).log = s.log := rfl
@[simp] theorem State.setBytes_draws (a : Nat) (bs : List Byte) : (s.setBytes a bs).draws = s.draws := rfl
@[simp] theorem State.setBytes_getV (a : Nat) (bs : List Byte) (y : Nibble) : (s.setBytes a bs).getV y = s.getV y := rfl

/-! ### setV -/

@[simp] theorem State.setV_v (x : Nibble) (b : Byte) : (s.setV x b).v = s.v.set x.toNat b x.isLt := rfl
@[simp] theorem State.setV_i (x : Nibble) (b : Byte) : (s.setV x b).i = s.i := rfl
@[simp] theorem State.setV_pc (x : Nibble) (b : Byte) : (s.setV x b).pc = s.pc := rfl
@[simp] theorem State.setV_sp (x : Nibble) (b : Byte) : (s.setV x b).sp = s.sp := rfl
@[simp] theorem State.setV_dt (x : Nibble) (b : Byte) : (s.setV x b).dt = s.dt := rfl
@[simp] theorem State.setV_st (x : Nibble) (b : Byte) : (s.setV x b).st = s.st := rfl
@[simp] theorem State.setV_mem (x : Nibble) (b : Byte) : (s.setV x b).mem = s.mem := rfl
@[simp] theorem State.setV_run (x : Nibble) (b : Byte) : (s.setV x b).run = s.run := rfl
@[simp] theorem State.setV_held (x : Nibble) (b : Byte) : (s.setV x b).held = s.held := rfl
@[simp] theorem State.setV_acc (x : Nibble) (b : Byte) : (s.setV x b).acc = s.acc := rfl
@[simp] theorem State.setV_quirkShiftSingle (x : Nibble) (b : Byte) : (s.setV x b).quirkShiftSingle = s.quirkShiftSingle := rfl
@[simp] theorem State.setV_quirkLdstNoInc (x : Nibble) (b : Byte) : (s.setV x b).quirkLdstNoInc = s.quirkLdstNoInc := rfl
@[simp] theorem State.setV_font (x : Nibble) (b : Byte) : (s.setV x b).font = s.font := rfl
@[simp] theorem State.setV_log (x : Nibble) (b : Byte) : (s.setV x b).log = s.log := rfl
@[simp] theorem State.setV_draws (x : Nibble) (b : Byte) : (s.setV x b).draws = s.draws := rfl
@[simp] theorem State.setV_byteAt (x : Nibble) (b : Byte) (p : Nat) : (s.setV x b).byteAt p = s.byteAt p := rfl

/-! ### setI -/

@[simp] theorem State.setI_v (a : Word) : (s.setI a).v = s.v := rfl
@[simp] theorem State.setI_i (a : Word) : (s.setI a).i = a := rfl
@[simp] theorem State.setI_pc (a : Word) : (s.setI a).pc = s.pc := rfl
@[simp] theorem State.setI_sp (a : Word) : (s.setI a).sp = s.sp := rfl
@[simp] theorem State.setI_dt (a : Word) : (s.setI a).dt = s.dt := rfl
@[simp] theorem State.setI_st (a : Word) : (s.setI a).st = s.st := rfl
@[simp] theorem State.setI_mem (a : Word) : (s.setI a).mem = s.mem := rfl
@[simp] theorem State.setI_run (a : Word) : (s.setI a).run = s.run := rfl
@[simp] theorem State.setI_held (a : Word) : (s.setI a).held = s.held := rfl
@[simp] theorem State.setI_acc (a : Word) : (s.setI a).acc = s.acc := rfl
@[simp] theorem State.setI_quirkShiftSingle (a : Word) : (s.setI a).quirkShiftSingle = s.quirkShiftSingle := rfl
@[simp] theorem State.setI_quirkLdstNoInc (a : Word) : (s.setI a).quirkLdstNoInc = s.quirkLdstNoInc := rfl
@[simp] theorem State.setI_font (a : Word) : (s.setI a).font = s.font := rfl
@[simp] theorem State.setI_log (a : Word) : (s.setI a).log = s.log := rfl
@[simp] theorem State.setI_draws (a : Word) : (s.setI a).draws = s.draws := rfl
@[simp] theorem State.setI_getV (a : Word) (y : Nibble) : (s.setI a).getV y = s.getV y := rfl
@[simp] theorem State.setI_byteAt (a : Word) (p : Nat) : (s.setI a).byteAt p = s.byteAt p := rfl

/-! ### setPc -/

@[simp] theorem State.setPc_v (a : Word) : (s.setPc a).v = s.v := rfl
@[simp] theorem State.setPc_i (a : Word) : (s.setPc a).i = s.i := rfl
@[simp] theorem State.setPc_pc (a : Word) : (s.setPc a).pc = a := rfl
@[simp] theorem State.setPc_sp (a : Word) : (s.setPc a).sp = s.sp := rfl
@[simp] theorem State.setPc_dt (a : Word) : (s.setPc a).dt = s.dt := rfl
@[simp] theorem State.setPc_st (a : Word) : (s.setPc a).st = s.st := rfl
@[simp] theorem State.setPc_mem (a : Word) : (s.setPc a).mem = s.mem := rfl
@[simp] theorem State.setPc_run (a : Word) : (s.setPc a).run = s.run := rfl
@[simp] theorem State.setPc_held (a : Word) : (s.setPc a).held = s.held := rfl
@[simp] theorem State.setPc_acc (a : Word) : (s.setPc a).acc = s.acc := rfl
@[simp] theorem State.setPc_quirkShiftSingle (a : Word) : (s.setPc a).quirkShiftSingle = s.quirkShiftSingle := rfl
@[simp] theorem State.setPc_quirkLdstNoInc (a : Word) : (s.setPc a).quirkLdstNoInc = s.quirkLdstNoInc := rfl
@[simp] theorem State.setPc_font (a : Word) : (s.setPc a).font = s.font := rfl
@[simp] theorem State.setPc_log (a : Word) : (s.setPc a).log = s.log := rfl
@[simp] theorem State.setPc_draws (a : Word) : (s.setPc a).draws = s.draws := rfl
@[simp] theorem State.setPc_getV (a : Word) (y : Nibble) : (s.setPc a).getV y = s.getV y := rfl
@[simp] theorem State.setPc_byteAt (a : Word) (p : Nat) : (s.setPc a).byteAt p = s.byteAt p := rfl

/-! ### setSp -/

@[simp] theorem State.setSp_v (b : Byte) : (s.setSp b).v = s.v := rfl
@[simp] theorem State.setSp_i (b : Byte) : (s.setSp b).i = s.i := rfl
@[simp] theorem State.setSp_pc (b : Byte) : (s.setSp b).pc = s.pc := rfl
@[simp] theorem State.setSp_sp (b : Byte) : (s.setSp b).sp = b := rfl
@[simp] theorem State.setSp_dt (b : Byte) : (s.setSp b).dt = s.dt := rfl
@[simp] theorem State.setSp_st (b : Byte) : (s.setSp b).st = s.st := rfl
@[simp] theorem State.setSp_mem (b : Byte) : (s.setSp b).mem = s.mem := rfl
@[simp] theorem State.setSp_run (b : Byte) : (s.setSp b).run = s.run := rfl
@[simp] theorem State.setSp_held (b : Byte) : (s.setSp b).held = s.held := rfl
@[simp] theorem State.setSp_acc (b : Byte) : (s.setSp b).acc = s.acc := rfl
@[simp] theorem State.setSp_quirkShiftSingle (b : Byte) : (s.setSp b).quirkShiftSingle = s.quirkShiftSingle := rfl
@[simp] theorem State.setSp_quirkLdstNoInc (b : Byte) : (s.setSp b).quirkLdstNoInc = s.quirkLdstNoInc := rfl
@[simp] theorem State.setSp_font (b : Byte) : (s.setSp b).font = s.font := rfl
@[simp] theorem State.setSp_log (b : Byte) : (s.setSp b).log = s.log := rfl
@[simp] theorem State.setSp_draws (b : Byte) : (s.setSp b).draws = s.draws := rfl
@[simp] theorem State.setSp_getV (b : Byte) (y : Nibble) : (s.setSp b).getV y = s.getV y := rfl
@[simp] theorem State.setSp_byteAt (b : Byte) (p : Nat) : (s.setSp b).byteAt p = s.byteAt p := rfl

/-! ### setDt -/

@[simp] theorem State.setDt_v (b : Byte) : (s.setDt b).v = s.v := rfl
@[simp] theorem State.setDt_i (b : Byte) : (s.setDt b).i = s.i := rfl
@[simp] theorem State.setDt_pc (b : Byte) : (s.setDt b).pc = s.pc := rfl
@[simp] theorem State.setDt_sp (b : Byte) : (s.setDt b).sp = s.sp := rfl
@[simp] theorem State.setDt_dt (b : Byte) : (s.setDt b).dt = b := rfl
@[simp] theorem State.setDt_st (b : Byte) : (s.setDt b).st = s.st := rfl
@[simp] theorem State.setDt_mem (b : Byte) : (s.setDt b).mem = s.mem := rfl
@[simp] theorem State.setDt_run (b : Byte) : (s.setDt b).run = s.run := rfl
@[simp] theorem State.setDt_held (b : Byte) : (s.setDt b).held = s.held := rfl
@[simp] theorem State.setDt_acc (b : Byte) : (s.setDt b).acc = s.acc := rfl
@[simp] theorem State.setDt_quirkShiftSingle (b : Byte) : (s.setDt b).quirkShiftSingle = s.quirkShiftSingle := rfl
@[simp] theorem State.setDt_quirkLdstNoInc (b : Byte) : (s.setDt b).quirkLdstNoInc = s.quirkLdstNoInc := rfl
@[simp] theorem State.setDt_font (b : Byte) : (s.setDt b).font = s.font := rfl
@[simp] theorem State.setDt_log (b : Byte) : (s.setDt b).log = s.log := rfl
@[simp] theorem State.setDt_draws (b : Byte) : (s.setDt b).draws = s.draws := rfl
@[simp] theorem State.setDt_getV (b : Byte) (y : Nibble) : (s.setDt b).getV y = s.getV y := rfl
@[simp] theorem State.setDt_byteAt (b : Byte) (p : Nat) : (s.setDt b).byteAt p = s.byteAt p := rfl

/-! ### setSt -/

@[simp] theorem State.setSt_v (b : Byte) : (s.setSt b).v = s.v := rfl
@[simp] theorem State.setSt_i (b : Byte) : (s.setSt b).i = s.i := rfl
@[simp] theorem State.setSt_pc (b : Byte) : (s.setSt b).pc = s.pc := rfl
@[simp] theorem State.setSt_sp (b : Byte) : (s.setSt b).sp = s.sp := rfl
@[simp] theorem State.setSt_dt (b : Byte) : (s.setSt b).dt = s.dt := rfl
@[simp] theorem State.setSt_st (b : Byte) : (s.setSt b).st = b := rfl
@[simp] theorem State.setSt_mem (b : Byte) : (s.setSt b).mem = s.mem := rfl
@[simp] theorem State.setSt_run (b : Byte) : (s.setSt b).run = s.run := rfl
@[simp] theorem State.setSt_held (b : Byte) : (s.setSt b).held = s.held := rfl
@[simp] theorem State.setSt_acc (b : Byte) : (s.setSt b).acc = s.acc := rfl
@[simp] theorem State.setSt_quirkShiftSingle (b : Byte) : (s.setSt b).quirkShiftSingle = s.quirkShiftSingle := rfl
@[simp] theorem State.setSt_quirkLdstNoInc (b : Byte) : (s.setSt b).quirkLdstNoInc = s.quirkLdstNoInc := rfl
@[simp] theorem State.setSt_font (b : Byte) : (s.setSt b).font = s.font := rfl
@[simp] theorem State.setSt_log (b : Byte) : (s.setSt b).log = s.log := rfl
@[simp] theorem State.setSt_draws (b : Byte) : (s.setSt b).draws = s.draws := rfl
@[simp] theorem State.setSt_getV (b : Byte) (y : Nibble) : (s.setSt b).getV y = s.getV y := rfl
@[simp] theorem State.setSt_byteAt (b : Byte) (p : Nat) : (s.setSt b).byteAt p = s.byteAt p := rfl

/-! ### setRun -/

@[simp] theorem State.setRun_v (r : RunState) : (s.setRun r).v = s.v := rfl
@[simp] theorem State.setRun_i (r : RunState) : (s.setRun r).i = s.i := rfl
@[simp] theorem State.setRun_pc (r : RunState) : (s.setRun r).pc = s.pc := rfl
@[simp] theorem State.setRun_sp (r : RunState) : (s.setRun r).sp = s.sp := rfl
@[simp] theorem State.setRun_dt (r : RunState) : (s.setRun r).dt = s.dt := rfl
@[simp] theorem State.setRun_st (r : RunState) : (s.setRun r).st = s.st := rfl
@[simp] theorem State.setRun_mem (r : RunState) : (s.setRun r).mem = s.mem := rfl
@[simp] theorem State.setRun_run (r : RunState) : (s.setRun r).run = r := rfl
@[simp] theorem State.setRun_held (r : RunState) : (s.setRun r).held = s.held := rfl
@[simp] theorem State.setRun_acc (r : RunState) : (s.setRun r).acc = s.acc := rfl
@[simp] theorem State.setRun_quirkShiftSingle (r : RunState) : (s.setRun r).quirkShiftSingle = s.quirkShiftSingle := rfl
@[simp] theorem State.setRun_quirkLdstNoInc (r : RunState) : (s.setRun r).quirkLdstNoInc = s.quirkLdstNoInc := rfl
@[simp] theorem State.setRun_font (r : RunState) : (s.setRun r).font = s.font := rfl
@[simp] theorem State.setRun_log (r : RunState) : (s.setRun r).log = s.log := rfl
@[simp] theorem State.setRun_draws (r : RunState) : (s.setRun r).draws = s.draws := rfl
@[simp] theorem State.setRun_getV (r : RunState) (y : Nibble) : (s.setRun r).getV y = s.getV y := rfl
@[simp] theorem State.setRun_byteAt (r : RunState) (p : Nat) : (s.setRun r).byteAt p = s.byteAt p := rfl

/-! ### setHeld -/

@[simp] theorem State.setHeld_v (h : BitVec 16) : (s.setHeld h).v = s.v := rfl
@[simp] theorem State.setHeld_i (h : BitVec 16) : (s.setHeld h).i = s.i := rfl
@[simp] theorem State.setHeld_pc (h : BitVec 16) : (s.setHeld h).pc = s.pc := rfl
@[simp] theorem State.setHeld_sp (h : BitVec 16) : (s.setHeld h).sp = s.sp := rfl
@[simp] theorem State.setHeld_dt (h : BitVec 16) : (s.setHeld h).dt = s.dt := rfl
@[simp] theorem State.setHeld_st (h : BitVec 16) : (s.setHeld h).st = s.st := rfl
@[simp] theorem State.setHeld_mem (h : BitVec 16) : (s.setHeld h).mem = s.mem := rfl
@[simp] theorem State.setHeld_run (h : BitVec 16) : (s.setHeld h).run = s.run := rfl
@[simp] theorem State.setHeld_held (h : BitVec 16) : (s.setHeld h).held = h := rfl
@[simp] theorem State.setHeld_acc (h : BitVec 16) : (s.setHeld h).acc = s.acc := rfl
@[simp] theorem State.setHeld_quirkShiftSingle (h : BitVec 16) : (s.setHeld h).quirkShiftSingle = s.quirkShiftSingle := rfl
@[simp] theorem State.setHeld_quirkLdstNoInc (h : BitVec 16) : (s.setHeld h).quirkLdstNoInc = s.quirkLdstNoInc := rfl
@[simp] theorem State.setHeld_font (h : BitVec 16) : (s.setHeld h).font = s.font := rfl
@[simp] theorem State.setHeld_log (h : BitVec 16) : (s.setHeld h).log = s.log := rfl
@[simp] theorem State.setHeld_draws (h : BitVec 16) : (s.setHeld h).draws = s.draws := rfl
@[simp] theorem State.setHeld_getV (h : BitVec 16) (y : Nibble) : (s.setHeld h).getV y = s.getV y := rfl
@[simp] theorem State.setHeld_byteAt (h : BitVec 16) (p : Nat) : (s.setHeld h).byteAt p = s.byteAt p := rfl

/-! ### setAcc -/

@[simp] theorem State.setAcc_v (n : Nat) : (s.setAcc n).v = s.v := rfl
@[simp] theorem State.setAcc_i (n : Nat) : (s.setAcc n).i = s.i := rfl
@[simp] theorem State.setAcc_pc (n : Nat) : (s.setAcc n).pc = s.pc := rfl
@[simp] theorem State.setAcc_sp (n : Nat) : (s.setAcc n).sp = s.sp := rfl
@[simp] theorem State.setAcc_dt (n : Nat) : (s.setAcc n).dt = s.dt := rfl
@[simp] theorem State.setAcc_st (n : Nat) : (s.setAcc n).st = s.st := rfl
@[simp] theorem State.setAcc_mem (n : Nat) : (s.setAcc n).mem = s.mem := rfl
@[simp] theorem State.setAcc_run (n : Nat) : (s.setAcc n).run = s.run := rfl
@[simp] theorem State.setAcc_held (n : Nat) : (s.setAcc n).held = s.held := rfl
@[simp] theorem State.setAcc_acc (n : Nat) : (s.setAcc n).acc = n := rfl
@[simp] theorem State.setAcc_quirkShiftSingle (n : Nat) : (s.setAcc n).quirkShiftSingle = s.quirkShiftSingle := rfl
@[simp] theorem State.setAcc_quirkLdstNoInc (n : Nat) : (s.setAcc n).quirkLdstNoInc = s.quirkLdstNoInc := rfl
@[simp] theorem State.setAcc_font (n : Nat) : (s.setAcc n).font = s.font := rfl
@[simp] theorem State.setAcc_log (n : Nat) : (s.setAcc n).log = s.log := rfl
@[simp] theorem State.setAcc_draws (n : Nat) : (s.setAcc n).draws = s.draws := rfl
@[simp] theorem State.setAcc_getV (n : Nat) (y : Nibble) : (s.setAcc n).getV y = s.getV y := rfl
@[simp] theorem State.setAcc_byteAt (n : Nat) (p : Nat) : (s.setAcc n).byteAt p = s.byteAt p := rfl

/-! ### emit -/

@[simp] theorem State.emit_v (e : DiagEvent) : (s.emit e).v = s.v := rfl
@[simp] theorem State.emit_i (e : DiagEvent) : (s.emit e).i = s.i := rfl
@[simp] theorem State.emit_pc (e : DiagEvent) : (s.emit e).pc = s.pc := rfl
@[simp] theorem State.emit_sp (e : DiagEvent) : (s.emit e).sp = s.sp := rfl
@[simp] theorem State.emit_dt (e : DiagEvent) : (s.emit e).dt = s.dt := rfl
@[simp] theorem State.emit_st (e : DiagEvent) : (s.emit e).st = s.st := rfl
@[simp] theorem State.emit_mem (e : DiagEvent) : (s.emit e).mem = s.mem := rfl
@[simp] theorem State.emit_run (e : DiagEvent) : (s.emit e).run = s.run := rfl
@[simp] theorem State.emit_held (e : DiagEvent) : (s.emit e).held = s.held := rfl
@[simp] theorem State.emit_acc (e : DiagEvent) : (s.emit e).acc = s.acc := rfl
@[simp] theorem State.emit_quirkShiftSingle (e : DiagEvent) : (s.emit e).quirkShiftSingle = s.quirkShiftSingle := rfl
@[simp] theorem State.emit_quirkLdstNoInc (e : DiagEvent) : (s.emit e).quirkLdstNoInc = s.quirkLdstNoInc := rfl
@[simp] theorem State.emit_font (e : DiagEvent) : (s.emit e).font = s.font := rfl
@[simp] theorem State.emit_log (e : DiagEvent) : (s.emit e).log = s.log ++ [e] := rfl
@[simp] theorem State.emit_draws (e : DiagEvent) : (s.emit e).draws = s.draws := rfl
@[simp] theorem State.emit_getV (e : DiagEvent) (y : Nibble) : (s.emit e).getV y = s.getV y := rfl
@[simp] theorem State.emit_byteAt (e : DiagEvent) (p : Nat) : (s.emit e).byteAt p = s.byteAt p := rfl

/-! ### countDraw -/

@[simp] theorem State.countDraw_v : (s.countDraw).v = s.v := rfl
@[simp] theorem State.countDraw_i : (s.countDraw).i = s.i := rfl
@[simp] theorem State.countDraw_pc : (s.countDraw).pc = s.pc := rfl
@[simp] theorem State.countDraw_sp : (s.countDraw).sp = s.sp := rfl
@[simp] theorem State.countDraw_dt : (s.countDraw).dt = s.dt := rfl
@[simp] theorem State.countDraw_st : (s.countDraw).st = s.st := rfl
@[simp] theorem State.countDraw_mem : (s.countDraw).mem = s.mem := rfl
@[simp] theorem State.countDraw_run : (s.countDraw).run = s.run := rfl
@[simp] theorem State.countDraw_held : (s.countDraw).held = s.held := rfl
@[simp] theorem State.countDraw_acc : (s.countDraw).acc = s.acc := rfl
@[simp] theorem State.countDraw_quirkShiftSingle : (s.countDraw).quirkShiftSingle = s.quirkShiftSingle := rfl
@[simp] theorem State.countDraw_quirkLdstNoInc : (s.countDraw).quirkLdstNoInc = s.quirkLdstNoInc := rfl
@[simp] theorem State.countDraw_font : (s.countDraw).font = s.font := rfl
@[simp] theorem State.countDraw_log : (s.countDraw).log = s.log := rfl
@[simp] theorem State.countDraw_draws : (s.countDraw).draws = s.draws + 1 := rfl
@[simp] theorem State.countDraw_getV (y : Nibble) : (s.countDraw).getV y = s.getV y := rfl
@[simp] theorem State.countDraw_byteAt (p : Nat) : (s.countDraw).byteAt p = s.byteAt p := rfl

/-! ### The register file -/

theorem State.getV_setV (x y : Nibble) (b : Byte) : (s.setV x b).getV y = if y = x then b else s.getV y := by
  simp only [State.getV, State.setV, Vector.getElem_set, BitVec.toNat_inj]
  by_cases h : x = y
  · simp [h]
  · simp [h, Ne.symm h]

@[simp] theorem State.getV_setV_same (x : Nibble) (b : Byte) : (s.setV x b).getV x = b := by
  simp [State.getV_setV]

theorem State.getV_setV_ne {x y : Nibble} (b : Byte) (h : y ≠ x) : (s.setV x b).getV y = s.getV y := by
  simp [State.getV_setV, h]

/-- Two register files that read alike are equal. -/
theorem State.v_ext {s t : State} (h : ∀ x, t.getV x = s.getV x) : t.v = s.v := by
  apply Vector.ext
  intro k hk
  have := h (BitVec.ofNat 4 k)
  simpa [State.getV, Nat.mod_eq_of_lt hk] using this

end Sys2Proof.Machine
end

