-- ==== Sys2Proof/Laws/Memory.lean ====
section
/-! SUPPORT. Memory as a map: what a read after a write gives, that every write keeps the canonical form, and that memories
in canonical form that read alike are equal. -/

namespace Sys2Proof.Machine

theorem memWfFrom_mono {lo lo' : Nat} {m : Memory} (h : memWfFrom lo m = true) (hle : lo' ≤ lo) :
    memWfFrom lo' m = true := by
  cases m with
  | nil => rfl
  | cons c m =>
    simp only [memWfFrom, Bool.and_eq_true, decide_eq_true_eq] at h ⊢
    exact ⟨⟨by omega, h.1.2⟩, h.2⟩

/-- Below its least address a memory in canonical form lists nothing. -/
theorem memRead_of_lt {lo a : Nat} {m : Memory} (h : memWfFrom lo m = true) (ha : a < lo) :
    memRead m a = blankByte a := by
  cases m with
  | nil => rfl
  | cons c m =>
    simp only [memWfFrom, Bool.and_eq_true, decide_eq_true_eq] at h
    have h1 : a ≠ c.1 := by omega
    have h2 : a < c.1 := by omega
    simp [memRead, h1, h2]

/-- Read after write: the byte written at its address, and every other byte as before. -/
theorem memRead_memWrite {lo : Nat} {m : Memory} (h : memWfFrom lo m = true) (a p : Nat) (v : Byte) :
    memRead (memWrite m a v) p = if p = a then v else memRead m p := by
  induction m generalizing lo with
  | nil =>
    by_cases hv : v = blankByte a <;> by_cases hp : p = a <;> simp [memWrite, memRead, hv, hp]
  | cons c m ih =>
    obtain ⟨b, w⟩ := c
    simp only [memWfFrom, Bool.and_eq_true, decide_eq_true_eq] at h
    simp only [memWrite]
    split
    · next hab =>
      split
      · next hv =>
        by_cases hp : p = a
        · subst hp
          have : p ≠ b := by omega
          simp [memRead, this, hab, hv]
        · simp [hp]
      · by_cases hp : p = a
        · simp [memRead, hp]
        · by_cases hpa : p < a
          · have h1 : p ≠ b := by omega
            have h2 : p < b := by omega
            simp [memRead, hp, hpa, h1, h2]
          · simp [memRead, hp, hpa]
    · split
      · next hab =>
        subst hab
        split
        · next hv =>
          by_cases hp : p = a
          · subst hp
            simp [hv, memRead_of_lt h.2 (Nat.lt_succ_self p)]
          · by_cases hpa : p < a
            · simp [memRead, hp, hpa, memRead_of_lt h.2 (Nat.lt_succ_of_lt hpa)]
            · simp [memRead, hp, hpa]
        · by_cases hp : p = a <;> simp [memRead, hp]
      · next hab hne =>
        by_cases hp : p = b
        · have : p ≠ a := by omega
          subst hp
          simp [memRead, this]
        · by_cases hpb : p < b
          · have : p ≠ a := by omega
            simp [memRead, hp, hpb, this]
          · simp [memRead, hp, hpb, ih h.2]

/-- A write keeps the canonical form. -/
theorem memWfFrom_memWrite {lo a : Nat} {m : Memory} (h : memWfFrom lo m = true) (ha : lo ≤ a) (v : Byte) :
    memWfFrom lo (memWrite m a v) = true := by
  induction m generalizing lo with
  | nil => by_cases hv : v = blankByte a <;> simp [memWrite, memWfFrom, hv, ha]
  | cons c m ih =>
    obtain ⟨b, w⟩ := c
    simp only [memWfFrom, Bool.and_eq_true, decide_eq_true_eq] at h
    simp only [memWrite]
    split
    · next hab =>
      split
      · simpa [memWfFrom] using h
      · next hv =>
        have : a + 1 ≤ b := hab
        simp [memWfFrom, ha, this, hv, h.1.2, h.2]
    · split
      · next hab =>
        subst hab
        split
        · exact memWfFrom_mono h.2 (by omega)
        · next hv => simp [memWfFrom, ha, hv, h.2]
      · next hab hne =>
        have : b + 1 ≤ a := by omega
        simp [memWfFrom, h.1.1, h.1.2, ih h.2 this]

theorem memWf_memWrite {m : Memory} (h : memWf m = true) (a : Nat) (v : Byte) : memWf (memWrite m a v) = true :=
  memWfFrom_memWrite h (Nat.zero_le a) v

theorem memWf_memWriteBytes {m : Memory} (h : memWf m = true) (base : Nat) (bs : List Byte) :
    memWf (memWriteBytes m base bs) = true := by
  induction bs generalizing m base with
  | nil => exact h
  | cons b bs ih => exact ih (memWf_memWrite h base b) (base + 1)

/-- Read after a run of writes: the byte of the list at its address, and every other byte as before. -/
theorem memRead_memWriteBytes {m : Memory} (h : memWf m = true) (base p : Nat) (bs : List Byte) :
    memRead (memWriteBytes m base bs) p =
      if base ≤ p ∧ p < base + bs.length then bs.getD (p - base) 0 else memRead m p := by
  induction bs generalizing m base with
  | nil =>
    simp [memWriteBytes]
  | cons b bs ih =>
    rw [memWriteBytes, ih (memWf_memWrite h base b), memRead_memWrite h]
    simp only [List.length_cons]
    by_cases hp : p = base
    · subst hp
      simp
    · by_cases h1 : base + 1 ≤ p ∧ p < base + 1 + bs.length
      · have h2 : base ≤ p ∧ p < base + (bs.length + 1) := by omega
        have h3 : p - base = p - (base + 1) + 1 := by omega
        simp only [if_pos h1, if_pos h2, h3, List.getD_cons_succ]
      · have h2 : ¬ (base ≤ p ∧ p < base + (bs.length + 1)) := by omega
        rw [if_neg h1, if_neg h2, if_neg hp]

/-- Memories in canonical form that read alike everywhere are the same list. -/
theorem mem_ext {lo : Nat} {m m' : Memory} (h : memWfFrom lo m = true) (h' : memWfFrom lo m' = true)
    (hr : ∀ a, memRead m a = memRead m' a) : m = m' := by
  induction m generalizing lo m' with
  | nil =>
    cases m' with
    | nil => rfl
    | cons c m' =>
      obtain ⟨b, w⟩ := c
      simp only [memWfFrom, Bool.and_eq_true, decide_eq_true_eq] at h'
      have := hr b
      simp [memRead] at this
      simp [this] at h'
  | cons c m ih =>
    obtain ⟨a, v⟩ := c
    cases m' with
    | nil =>
      simp only [memWfFrom, Bool.and_eq_true, decide_eq_true_eq] at h
      have := hr a
      simp [memRead] at this
      simp [this] at h
    | cons c' m' =>
      obtain ⟨b, w⟩ := c'
      simp only [memWfFrom, Bool.and_eq_true, decide_eq_true_eq] at h h'
      have hab : a = b := by
        rcases Nat.lt_trichotomy a b with hl | he | hl
        · have := hr a
          simp [memRead, Nat.ne_of_lt hl, hl] at this
          simp [this] at h
        · exact he
        · have := hr b
          simp [memRead, Nat.ne_of_lt hl, hl] at this
          simp [← this] at h'
      subst hab
      have hv : v = w := by simpa [memRead] using hr a
      subst hv
      congr 1
      refine ih h.2 h'.2 fun p => ?_
      by_cases hp : p = a
      · subst hp
        rw [memRead_of_lt h.2 (Nat.lt_succ_self p), memRead_of_lt h'.2 (Nat.lt_succ_self p)]
      · by_cases hl : p < a
        · rw [memRead_of_lt h.2 (by omega), memRead_of_lt h'.2 (by omega)]
        · simpa [memRead, hp, hl] using hr p

/-! ### The same, on states -/

theorem State.byteAt_setByte {s : State} (h : memWf s.mem = true) (a p : Nat) (v : Byte) :
    (s.setByte a v).byteAt p = if p = a then v else s.byteAt p := memRead_memWrite h a p v

theorem State.byteAt_setBytes {s : State} (h : memWf s.mem = true) (base p : Nat) (bs : List Byte) :
    (s.setBytes base bs).byteAt p =
      if base ≤ p ∧ p < base + bs.length then bs.getD (p - base) 0 else s.byteAt p :=
  memRead_memWriteBytes h base p bs

@[simp] theorem State.memWf_setByte {s : State} (h : memWf s.mem = true) (a : Nat) (v : Byte) :
    memWf (s.setByte a v).mem = true := memWf_memWrite h a v

@[simp] theorem State.memWf_setBytes {s : State} (h : memWf s.mem = true) (base : Nat) (bs : List Byte) :
    memWf (s.setBytes base bs).mem = true := memWf_memWriteBytes h base bs

/-- Power-on memory is in canonical form. -/
theorem memWf_reset : memWf State.reset.mem = true := rfl

end Sys2Proof.Machine
end

