-- ==== Sys2Proof/Laws/Frames.lean ====
section
/-! SUPPORT. How frames compose, and the frame of every update and shared operation. -/

namespace Sys2Proof.Machine

/-! ### Composition -/

theorem Component.same_refl (c : Component) (s : State) : c.Same s s := by cases c <;> rfl

theorem Component.same_trans {c : Component} {s t u : State} (h : c.Same s t) (h' : c.Same t u) : c.Same s u := by
  cases c <;> exact Eq.trans h' h

theorem ChangesOnly.refl (cs : List Component) (s : State) : ChangesOnly cs s s := fun c _ => c.same_refl s

theorem ChangesOnly.trans {cs : List Component} {s t u : State} (h : ChangesOnly cs s t) (h' : ChangesOnly cs t u) :
    ChangesOnly cs s u := fun c hc => Component.same_trans (h c hc) (h' c hc)

theorem ChangesOnly.mono {cs ds : List Component} {s t : State} (h : ChangesOnly cs s t) (hsub : ∀ c ∈ cs, c ∈ ds) :
    ChangesOnly ds s t := fun c hc => h c fun h' => hc (hsub c h')

/-! ### The frame of each update -/

theorem changesOnly_setByte {s : State} (h : memWf s.mem = true) (a : Nat) (b : Byte) :
    ChangesOnly [.mem a] s (s.setByte a b) := by
  intro c hc
  cases c <;> first | rfl | skip
  next p =>
    have : p ≠ a := fun e => hc (by simp [e])
    simp [Component.Same, State.byteAt_setByte h, this]

theorem changesOnly_setBytes {s : State} (h : memWf s.mem = true) (base : Nat) (bs : List Byte) :
    ChangesOnly (bytesFrom base bs.length) s (s.setBytes base bs) := by
  intro c hc
  cases c <;> first | rfl | skip
  next p =>
    have : ¬ (base ≤ p ∧ p < base + bs.length) := fun e =>
      hc (by simp only [bytesFrom, List.mem_map, List.mem_range]; exact ⟨p - base, by omega, by congr 1; omega⟩)
    simp only [Component.Same, State.byteAt_setBytes h, if_neg this]

theorem changesOnly_setV (s : State) (x : Nibble) (b : Byte) : ChangesOnly [.v x] s (s.setV x b) := by
  intro c hc
  cases c <;> first | rfl | skip
  next y =>
    have : y ≠ x := fun e => hc (by simp [e])
    exact s.getV_setV_ne b this

theorem changesOnly_setI (s : State) (a : Word) : ChangesOnly [.i] s (s.setI a) := by
  intro c hc
  cases c <;> first | rfl | simp at hc

theorem changesOnly_setPc (s : State) (a : Word) : ChangesOnly [.pc] s (s.setPc a) := by
  intro c hc
  cases c <;> first | rfl | simp at hc

theorem changesOnly_setSp (s : State) (b : Byte) : ChangesOnly [.sp] s (s.setSp b) := by
  intro c hc
  cases c <;> first | rfl | simp at hc

theorem changesOnly_setDt (s : State) (b : Byte) : ChangesOnly [.dt] s (s.setDt b) := by
  intro c hc
  cases c <;> first | rfl | simp at hc

theorem changesOnly_setSt (s : State) (b : Byte) : ChangesOnly [.st] s (s.setSt b) := by
  intro c hc
  cases c <;> first | rfl | simp at hc

theorem changesOnly_setRun (s : State) (r : RunState) : ChangesOnly [.run] s (s.setRun r) := by
  intro c hc
  cases c <;> first | rfl | simp at hc

theorem changesOnly_setHeld (s : State) (h : BitVec 16) : ChangesOnly [.held] s (s.setHeld h) := by
  intro c hc
  cases c <;> first | rfl | simp at hc

theorem changesOnly_setAcc (s : State) (n : Nat) : ChangesOnly [.acc] s (s.setAcc n) := by
  intro c hc
  cases c <;> first | rfl | simp at hc

theorem changesOnly_emit (s : State) (e : DiagEvent) : ChangesOnly [.log] s (s.emit e) := by
  intro c hc
  cases c <;> first | rfl | simp at hc

theorem changesOnly_countDraw (s : State) : ChangesOnly [.draws] s s.countDraw := by
  intro c hc
  cases c <;> first | rfl | simp at hc

theorem changesOnly_skipIf (s : State) (b : Bool) : ChangesOnly [.pc] s (skipIf b s) := by
  cases b
  · exact .refl _ _
  · exact changesOnly_setPc s _

theorem changesOnly_raiseFatal (s : State) (k : FatalKind) (w : Word) : ChangesOnly [.run] s (raiseFatal k w s) :=
  changesOnly_setRun s _

theorem changesOnly_setWithFlag (s : State) (x : Nibble) (b : Byte) (f : Bool) :
    ChangesOnly [.v x, .v regF] s (setWithFlag x b f s) :=
  .trans ((changesOnly_setV s x b).mono (by simp)) ((changesOnly_setV _ regF _).mono (by simp))

/-! ### Membership in the frames of memory -/

@[simp] theorem mem_bytesFrom (base n : Nat) (c : Component) :
    c ∈ bytesFrom base n ↔ ∃ k < n, c = .mem (base + k) := by
  simp only [bytesFrom, List.mem_map, List.mem_range]
  exact ⟨fun ⟨k, h, e⟩ => ⟨k, h, e.symm⟩, fun ⟨k, h, e⟩ => ⟨k, h, e.symm⟩⟩

@[simp] theorem mem_storedBytes (base : Word) (n : Nat) (c : Component) :
    c ∈ storedBytes base n ↔ ∃ k < n, permitted8 (offsetAddr base k) = true ∧ c = .mem (offsetAddr base k).toNat := by
  simp only [storedBytes, List.mem_map, List.mem_filter, List.mem_range]
  exact ⟨fun ⟨k, ⟨h, p⟩, e⟩ => ⟨k, h, p, e.symm⟩, fun ⟨k, h, p, e⟩ => ⟨k, ⟨h, p⟩, e.symm⟩⟩

@[simp] theorem mem_firstRegs (n : Nat) (c : Component) : c ∈ firstRegs n ↔ ∃ k < n, c = .v (regOfNat k) := by
  simp only [firstRegs, List.mem_map, List.mem_range]
  exact ⟨fun ⟨k, h, e⟩ => ⟨k, h, e.symm⟩, fun ⟨k, h, e⟩ => ⟨k, h, e.symm⟩⟩

end Sys2Proof.Machine
end

