-- ==== Sys2Proof/Laws/Ops.lean ====
section
/-! SUPPORT. One lemma for each shared operation that says once everything it can do: the access controller, the stack
engine, fetch, and the loops of the bulk transfers. -/

namespace Sys2Proof.Machine

/-! ### Region tags -/

theorem tag_ne_none_iff (a : Nat) : tag a ≠ .none ↔ 0x090 ≤ a ∧ a ≤ 0xFFE := by
  simp only [tag]
  repeat' split
  all_goals simp
  all_goals omega

theorem permitted8_iff (a : Word) : permitted8 a = true ↔ 0x090 ≤ a.toNat ∧ a.toNat ≤ 0xFFE := by
  rw [← tag_ne_none_iff]
  simp [permitted8]

theorem tag_eq_stack_iff (a : Nat) : tag a = .stack ↔ 0x0E0 ≤ a ∧ a ≤ 0x0FF := by
  simp only [tag]
  repeat' split
  all_goals simp
  all_goals omega

theorem tag_eq_display_iff (a : Nat) : tag a = .display ↔ 0x100 ≤ a ∧ a ≤ 0x1FF := by
  simp only [tag]
  repeat' split
  all_goals simp
  all_goals omega

theorem permitted16_iff (a : Word) :
    permitted16 a = true ↔ 0x090 ≤ a.toNat ∧ a.toNat ≤ 0xFFD ∧ a.toNat ≠ 0x0DF ∧ a.toNat ≠ 0x0FF ∧ a.toNat ≠ 0x1FF := by
  simp only [permitted16, tag]
  repeat' split
  all_goals simp
  all_goals omega

/-! ### Memory stays inside the regions -/

theorem memInRegions_memWrite {m : Memory} (h : memInRegions m = true) {a : Nat} (ha : tag a ≠ .none) (v : Byte) :
    memInRegions (memWrite m a v) = true := by
  induction m with
  | nil => by_cases hv : v = blankByte a <;> simp [memWrite, memInRegions, hv, ha]
  | cons c m ih =>
    obtain ⟨b, w⟩ := c
    simp only [memInRegions, List.all_cons, Bool.and_eq_true] at h ih ⊢
    have ha' : (tag a != Region.none) = true := by simpa using ha
    simp only [memWrite]
    split
    · split
      · simpa using h
      · simpa [ha] using h
    · split
      · split
        · exact h.2
        · simpa [ha] using h.2
      · simpa using ⟨by simpa using h.1, by simpa using ih h.2⟩

theorem memInRegions_memWriteBytes {m : Memory} (h : memInRegions m = true) {base : Nat} {bs : List Byte}
    (hb : 0x090 ≤ base) (he : base + bs.length ≤ 0xFFF) : memInRegions (memWriteBytes m base bs) = true := by
  induction bs generalizing m base with
  | nil => exact h
  | cons b bs ih =>
    simp only [List.length_cons] at he
    exact ih (memInRegions_memWrite h ((tag_ne_none_iff base).2 (by omega)) b) (by omega) (by omega)

/-! ### The access controller -/

theorem read8_fst (a : Word) (s : State) : (read8 a s).1 = readableByte s a := by
  simp only [read8, readableByte]
  split <;> rfl

theorem read8_snd (a : Word) (s : State) :
    (read8 a s).2 = if permitted8 a then s else s.emit ⟨.read, .bits8, a⟩ := by
  simp only [read8]
  split <;> rfl

theorem write8_snd (a : Word) (v : Byte) (s : State) :
    (write8 a v s).2 = if permitted8 a then s.setByte a.toNat v else s.emit ⟨.write, .bits8, a⟩ := by
  simp only [write8]
  split <;> rfl

theorem changesOnly_read8 (a : Word) (s : State) : ChangesOnly [.log] s (read8 a s).2 := by
  rw [read8_snd]
  split
  · exact .refl _ _
  · exact changesOnly_emit _ _

theorem changesOnly_write8 {s : State} (h : memWf s.mem = true) (a : Word) (v : Byte) :
    ChangesOnly (.log :: if permitted8 a then [.mem a.toNat] else []) s (write8 a v s).2 := by
  rw [write8_snd]
  split
  · exact (changesOnly_setByte h _ _).mono (by simp)
  · exact changesOnly_emit _ _

theorem memWf_write8 {s : State} (h : memWf s.mem = true) (a : Word) (v : Byte) :
    memWf (write8 a v s).2.mem = true := by
  rw [write8_snd]
  split
  · exact State.memWf_setByte h _ _
  · exact h

theorem memInRegions_write8 {s : State} (h : memInRegions s.mem = true) (a : Word) (v : Byte) :
    memInRegions (write8 a v s).2.mem = true := by
  rw [write8_snd]
  split
  · next hp => exact memInRegions_memWrite h (by simpa [permitted8] using hp) v
  · exact h

theorem read8_mem (a : Word) (s : State) : (read8 a s).2.mem = s.mem := by
  rw [read8_snd]
  split <;> rfl

/-! ### The stack engine -/

theorem spOk_iff (sp : Byte) : spOk sp = true ↔ 0xE0 ≤ sp.toNat ∧ sp.toNat % 2 = 0 := by simp [spOk]

/-- With SP on a slot, push overflows exactly at 0xFE and otherwise stores the word big-endian in the next slot (R101). -/
theorem push_eq {s : State} (h : spOk s.sp = true) (v : Word) :
    push v s =
      if s.sp = 0xFE then none
      else some (((s.setSp (s.sp + 2)).setByte (s.sp.toNat + 2) (hiByte v)).setByte (s.sp.toNat + 3) (loByte v)) := by
  rw [spOk_iff] at h
  have hlt := s.sp.isLt
  by_cases he : s.sp = 0xFE
  · simp [push, he]
  · have hne : s.sp.toNat ≠ 0xFE := fun e => he (BitVec.eq_of_toNat_eq e)
    have hle : ¬ s.sp.toNat + 2 > 0xFE := by omega
    have hadd : (s.sp + 2).toNat = s.sp.toNat + 2 := by
      rw [BitVec.toNat_add]
      simp
      omega
    have haddr : (stackAddr (s.sp + 2)).toNat = s.sp.toNat + 2 := by
      simp only [stackAddr, BitVec.truncate_eq_setWidth, BitVec.toNat_setWidth, hadd]
      omega
    have hp : permitted16 (stackAddr (s.sp + 2)) = true := by
      rw [permitted16_iff, haddr]
      omega
    simp only [push, if_neg hle, if_neg he, write16, if_pos hp, haddr]

/-- With SP on a slot, pop underruns exactly at 0xE0 and otherwise gives the slot's word and retreats SP (R102). -/
theorem pop_eq {s : State} (h : spOk s.sp = true) :
    pop s = if s.sp = 0xE0 then none else some (slotWord s s.sp.toNat, s.setSp (s.sp - 2)) := by
  rw [spOk_iff] at h
  have hlt := s.sp.isLt
  by_cases he : s.sp = 0xE0
  · simp [pop, he]
  · have haddr : (stackAddr s.sp).toNat = s.sp.toNat := by
      simp only [stackAddr, BitVec.truncate_eq_setWidth, BitVec.toNat_setWidth]
      omega
    have hp : permitted16 (stackAddr s.sp) = true := by
      rw [permitted16_iff, haddr]
      omega
    simp only [pop, if_neg he, read16, if_pos hp, haddr, slotWord]

/-- Whatever the state, a push overflows, or moves SP up by 2 and writes memory and the diagnostic output alone. -/
theorem push_shape (v : Word) (s : State) :
    push v s = none ∨ ∃ m l, push v s = some { s with sp := s.sp + 2, mem := m, log := s.log ++ l } := by
  simp only [push]
  split
  · exact .inl rfl
  · refine .inr ?_
    simp only [write16]
    split
    · exact ⟨_, [], by simp only [List.append_nil]; rfl⟩
    · exact ⟨_, _, rfl⟩

/-- Whatever the state, a pop underruns, or moves SP down by 2 and writes the diagnostic output alone. -/
theorem pop_shape (s : State) :
    pop s = none ∨ ∃ w l, pop s = some (w, { s with sp := s.sp - 2, log := s.log ++ l }) := by
  simp only [pop]
  split
  · exact .inl rfl
  · refine .inr ?_
    simp only [read16]
    split
    · exact ⟨_, [], by simp only [List.append_nil]; rfl⟩
    · exact ⟨_, _, rfl⟩

/-- SP moved up from a slot that is not the last is on a slot (R42). -/
theorem spOk_add_two {sp : Byte} (h : spOk sp = true) (hne : sp ≠ 0xFE) : spOk (sp + 2) = true := by
  rw [spOk_iff] at h ⊢
  have : sp.toNat ≠ 0xFE := fun e => hne (BitVec.eq_of_toNat_eq e)
  have := sp.isLt
  rw [BitVec.toNat_add]
  simp
  omega

/-- SP moved down from a slot that is not the first is on a slot (R42). -/
theorem spOk_sub_two {sp : Byte} (h : spOk sp = true) (hne : sp ≠ 0xE0) : spOk (sp - 2) = true := by
  rw [spOk_iff] at h ⊢
  have : sp.toNat ≠ 0xE0 := fun e => hne (BitVec.eq_of_toNat_eq e)
  have := sp.isLt
  rw [BitVec.toNat_sub]
  simp
  omega

/-! ### Fetch -/

/-- Fetching at a permitted address gives the big-endian word there and only advances PC (R80, R100). -/
theorem fetch_of_permitted {s : State} (h : permitted16 s.pc = true) :
    fetch s = (slotWord s s.pc.toNat, s.setPc (s.pc + 2)) := by
  simp [fetch, read16, h, slotWord]

/-- Fetching at a refused address gives the sentinel and one event, and advances PC (R80). -/
theorem fetch_of_refused {s : State} (h : permitted16 s.pc = false) :
    fetch s = (0xFFFF, (s.emit ⟨.read, .bits16, s.pc⟩).setPc (s.pc + 2)) := by
  simp [fetch, read16, h]

theorem decode_sentinel : decode 0xFFFF = none := by decide

/-! ### The loops of the bulk transfers -/

theorem storeRegs_succ (base : Word) (k : Nat) (s : State) :
    storeRegs base (k + 1) s =
      (write8 (offsetAddr base k) ((storeRegs base k s).getV (regOfNat k)) (storeRegs base k s)).2 := rfl

theorem loadRegs_succ (base : Word) (k : Nat) (s : State) :
    loadRegs base (k + 1) s =
      (read8 (offsetAddr base k) (loadRegs base k s)).2.setV (regOfNat k)
        (readableByte (loadRegs base k s) (offsetAddr base k)) := by
  simp only [loadRegs, ← read8_fst]

theorem memWf_storeRegs {s : State} (h : memWf s.mem = true) (base : Word) (n : Nat) :
    memWf (storeRegs base n s).mem = true := by
  induction n with
  | zero => exact h
  | succ k ih => exact memWf_write8 ih _ _

theorem memInRegions_storeRegs {s : State} (h : memInRegions s.mem = true) (base : Word) (n : Nat) :
    memInRegions (storeRegs base n s).mem = true := by
  induction n with
  | zero => exact h
  | succ k ih => exact memInRegions_write8 ih _ _

theorem loadRegs_mem (base : Word) (n : Nat) (s : State) : (loadRegs base n s).mem = s.mem := by
  induction n with
  | zero => rfl
  | succ k ih => rw [loadRegs_succ, State.setV_mem, read8_mem, ih]

/-- A run of stores changes nothing but the diagnostic output and the permitted bytes (R212). -/
theorem changesOnly_storeRegs {s : State} (h : memWf s.mem = true) (base : Word) (n : Nat) :
    ChangesOnly (.log :: storedBytes base n) s (storeRegs base n s) := by
  induction n with
  | zero => exact .refl _ _
  | succ k ih =>
    refine .trans (ih.mono ?_) ((changesOnly_write8 (memWf_storeRegs h base k) _ _).mono ?_)
    · intro c hc
      simp only [List.mem_cons, mem_storedBytes] at hc ⊢
      exact hc.imp_right fun ⟨j, hj, e⟩ => ⟨j, by omega, e⟩
    · intro c hc
      simp only [List.mem_cons, mem_storedBytes] at hc ⊢
      refine hc.imp_right fun hc => ?_
      split at hc
      · next hp => exact ⟨k, by omega, hp, by simpa using hc⟩
      · simp at hc

/-- A run of loads changes nothing but the diagnostic output and the registers loaded (R214). -/
theorem changesOnly_loadRegs (s : State) (base : Word) (n : Nat) :
    ChangesOnly (.log :: firstRegs n) s (loadRegs base n s) := by
  induction n with
  | zero => exact .refl _ _
  | succ k ih =>
    rw [loadRegs_succ]
    refine .trans (ih.mono ?_) (.trans ((changesOnly_read8 _ _).mono (by simp)) ((changesOnly_setV _ _ _).mono ?_))
    · intro c hc
      simp only [List.mem_cons, mem_firstRegs] at hc ⊢
      exact hc.imp_right fun ⟨j, hj, e⟩ => ⟨j, by omega, e⟩
    · intro c hc
      simp only [List.mem_singleton] at hc
      simp only [List.mem_cons, mem_firstRegs]
      exact .inr ⟨k, by omega, hc⟩

/-! ### Values after the bulk transfers -/

/-- An effective address as a number (R217). -/
theorem toNat_offsetAddr (a : Word) (k : Nat) : (offsetAddr a k).toNat = (a.toNat + k) % 65536 := by
  simp [offsetAddr, BitVec.toNat_add]

/-- Within 16 bytes the effective addresses differ. -/
theorem offsetAddr_inj {a : Word} {j k : Nat} (hj : j < 16) (hk : k < 16) (h : (offsetAddr a j).toNat = (offsetAddr a
    k).toNat) : j = k := by
  rw [toNat_offsetAddr, toNat_offsetAddr] at h
  have := a.isLt
  omega

/-- A checked read leaves every byte. -/
theorem byteAt_read8 (a : Word) (s : State) (p : Nat) : (read8 a s).2.byteAt p = s.byteAt p := by
  rw [read8_snd]; split <;> rfl

/-- What every byte reads as after a checked write (R57). -/
theorem byteAt_write8 {s : State} (h : memWf s.mem = true) (a : Word) (v : Byte) (p : Nat) :
    (write8 a v s).2.byteAt p = if permitted8 a = true ∧ p = a.toNat then v else s.byteAt p := by
  rw [write8_snd]
  by_cases hp : permitted8 a = true
  · simp [hp, State.byteAt_setByte h]
  · simp [hp]

/-- The events of a checked write (R57). -/
theorem log_write8 (a : Word) (v : Byte) (s : State) :
    (write8 a v s).2.log = s.log ++ if permitted8 a then [] else [⟨.write, .bits8, a⟩] := by
  rw [write8_snd]; split <;> simp

/-- The events of one access more. -/
theorem refusals_succ (acc : Access) (base : Word) (n : Nat) :
    refusals acc base (n + 1) = refusals acc base n ++ if permitted8 (offsetAddr base n) then [] else [⟨acc, .bits8,
        offsetAddr base n⟩] := by
  simp only [refusals, List.range_succ, List.filter_append, List.map_append]
  congr 1
  cases hp : permitted8 (offsetAddr base n) <;> simp [hp]

/-- A checked read leaves every register. -/
theorem getV_read8 (a : Word) (s : State) (x : Nibble) : (read8 a s).2.getV x = s.getV x := by
  rw [read8_snd]; split <;> rfl

end Sys2Proof.Machine
end

