-- ==== Sys2Proof/Laws/Display.lean ====
section
/-! SUPPORT. The display engine: what a row and a sprite can change, that they keep memory in form, and how the pixel view
(R36) sees a byte written. -/

namespace Sys2Proof.Machine

/-! ### One display byte -/

@[simp] theorem xorByte_fst (a : Nat) (p : Byte) (d : Bool × State) :
    (xorByte a p d).1 = (d.1 || (d.2.byteAt a &&& p != 0)) := rfl

@[simp] theorem xorByte_snd (a : Nat) (p : Byte) (d : Bool × State) :
    (xorByte a p d).2 = d.2.setByte a (d.2.byteAt a ^^^ p) := rfl

/-! ### One row -/

/-- The first display byte of row `r` of a sprite at (xc, yc) (R171's i0). -/
def leftAddr (xc yc : Byte) (r : Nat) : Nat := 0x100 + 8 * ((yc.toNat + r) % 32) + xc.toNat % 64 / 8

/-- The second display byte of that row (R171's i1). -/
def rightAddr (xc yc : Byte) (r : Nat) : Nat := 0x100 + 8 * ((yc.toNat + r) % 32) + (xc.toNat % 64 / 8 + 1) % 8

theorem drawRow_eq (xc yc : Byte) (addr : Word) (r : Nat) (d : Bool × State) :
    drawRow xc yc addr r d =
      xorByte (rightAddr xc yc r) (readableByte d.2 (offsetAddr addr r) <<< (8 - xc.toNat % 64 % 8))
        (xorByte (leftAddr xc yc r) (readableByte d.2 (offsetAddr addr r) >>> (xc.toNat % 64 % 8))
          (d.1, (read8 (offsetAddr addr r) d.2).2)) := by
  simp only [drawRow, leftAddr, rightAddr, ← read8_fst]

theorem leftAddr_range (xc yc : Byte) (r : Nat) : 0x100 ≤ leftAddr xc yc r ∧ leftAddr xc yc r < 0x200 := by
  simp only [leftAddr]
  omega

theorem rightAddr_range (xc yc : Byte) (r : Nat) : 0x100 ≤ rightAddr xc yc r ∧ rightAddr xc yc r < 0x200 := by
  simp only [rightAddr]
  omega

theorem leftAddr_ne_rightAddr (xc yc : Byte) (r : Nat) : leftAddr xc yc r ≠ rightAddr xc yc r := by
  simp only [leftAddr, rightAddr]
  omega

theorem memWf_drawRow {d : Bool × State} (h : memWf d.2.mem = true) (xc yc : Byte) (addr : Word) (r : Nat) :
    memWf (drawRow xc yc addr r d).2.mem = true := by
  simp only [drawRow_eq, xorByte_snd]
  exact State.memWf_setByte (State.memWf_setByte (by rwa [read8_mem]) _ _) _ _

theorem memInRegions_drawRow {d : Bool × State} (h : memInRegions d.2.mem = true) (xc yc : Byte) (addr : Word) (r :
    Nat) :
    memInRegions (drawRow xc yc addr r d).2.mem = true := by
  have hl := leftAddr_range xc yc r
  have hr := rightAddr_range xc yc r
  simp only [drawRow_eq, xorByte_snd, State.setByte_mem]
  refine memInRegions_memWrite (memInRegions_memWrite (by rwa [read8_mem]) ?_ _) ?_ _
  · exact (tag_ne_none_iff _).2 (by omega)
  · exact (tag_ne_none_iff _).2 (by omega)

/-- A row changes nothing but the diagnostic output and its two display bytes (R171, R172). -/
theorem changesOnly_drawRow {d : Bool × State} (h : memWf d.2.mem = true) (xc yc : Byte) (addr : Word) (r : Nat) :
    ChangesOnly [.log, .mem (leftAddr xc yc r), .mem (rightAddr xc yc r)] d.2 (drawRow xc yc addr r d).2 := by
  have h1 : memWf (read8 (offsetAddr addr r) d.2).2.mem = true := by rwa [read8_mem]
  simp only [drawRow_eq, xorByte_snd]
  exact ((changesOnly_read8 _ _).mono (by simp)).trans (((changesOnly_setByte h1 _ _).mono (by simp)).trans
    ((changesOnly_setByte (State.memWf_setByte h1 _ _) _ _).mono (by simp)))

/-- Whatever the state, a row writes memory and the diagnostic output alone. -/
theorem drawRow_shape (xc yc : Byte) (addr : Word) (r : Nat) (d : Bool × State) :
    ∃ m l, (drawRow xc yc addr r d).2 = { d.2 with mem := m, log := d.2.log ++ l } := by
  simp only [drawRow_eq, xorByte_snd, read8_snd]
  split
  · exact ⟨_, [], by simp only [List.append_nil]; rfl⟩
  · exact ⟨_, _, rfl⟩

/-! ### A sprite -/

theorem drawSprite_succ (xc yc : Byte) (addr : Word) (r : Nat) (s : State) :
    drawSprite xc yc addr (r + 1) s = drawRow xc yc addr r (drawSprite xc yc addr r s) := rfl

theorem memWf_drawSprite {s : State} (h : memWf s.mem = true) (xc yc : Byte) (addr : Word) (n : Nat) :
    memWf (drawSprite xc yc addr n s).2.mem = true := by
  induction n with
  | zero => exact h
  | succ r ih => exact memWf_drawRow ih xc yc addr r

theorem memInRegions_drawSprite {s : State} (h : memInRegions s.mem = true) (xc yc : Byte) (addr : Word) (n : Nat) :
    memInRegions (drawSprite xc yc addr n s).2.mem = true := by
  induction n with
  | zero => exact h
  | succ r ih => exact memInRegions_drawRow ih xc yc addr r

/-- A sprite changes nothing but the diagnostic output and display bytes (R172). -/
theorem changesOnly_drawSprite {s : State} (h : memWf s.mem = true) (xc yc : Byte) (addr : Word) (n : Nat) :
    ChangesOnly (.log :: bytesFrom displayBase displayBytes) s (drawSprite xc yc addr n s).2 := by
  induction n with
  | zero => exact .refl _ _
  | succ r ih =>
    refine ih.trans ((changesOnly_drawRow (memWf_drawSprite h xc yc addr r) xc yc addr r).mono ?_)
    intro c hc
    have hl := leftAddr_range xc yc r
    have hr := rightAddr_range xc yc r
    simp only [List.mem_cons, mem_bytesFrom, List.not_mem_nil, or_false, displayBase, displayBytes] at hc ⊢
    rcases hc with rfl | rfl | rfl
    · exact .inl rfl
    · exact .inr ⟨leftAddr xc yc r - 0x100, by omega, congrArg _ (by omega)⟩
    · exact .inr ⟨rightAddr xc yc r - 0x100, by omega, congrArg _ (by omega)⟩

/-- Whatever the state, a sprite writes memory and the diagnostic output alone. -/
theorem drawSprite_shape (xc yc : Byte) (addr : Word) (n : Nat) (s : State) :
    ∃ m l, (drawSprite xc yc addr n s).2 = { s with mem := m, log := s.log ++ l } := by
  induction n with
  | zero => exact ⟨s.mem, [], by simp only [List.append_nil]; rfl⟩
  | succ r ih =>
    obtain ⟨m, l, e⟩ := ih
    obtain ⟨m', l', e'⟩ := drawRow_shape xc yc addr r (drawSprite xc yc addr r s)
    exact ⟨m', l ++ l', by rw [drawSprite_succ, e', e]; simp⟩

/-! ### The bulk transfers' shape -/

/-- Whatever the state, a checked write touches memory and the diagnostic output alone. -/
theorem write8_shape (a : Word) (v : Byte) (s : State) :
    ∃ m l, (write8 a v s).2 = { s with mem := m, log := s.log ++ l } := by
  rw [write8_snd]
  split
  · exact ⟨_, [], by simp only [List.append_nil]; rfl⟩
  · exact ⟨_, _, rfl⟩

/-- Whatever the state, a run of stores touches memory and the diagnostic output alone. -/
theorem storeRegs_shape (base : Word) (n : Nat) (s : State) :
    ∃ m l, storeRegs base n s = { s with mem := m, log := s.log ++ l } := by
  induction n with
  | zero => exact ⟨s.mem, [], by simp only [List.append_nil]; rfl⟩
  | succ k ih =>
    obtain ⟨m, l, e⟩ := ih
    obtain ⟨m', l', e'⟩ :=
      write8_shape (offsetAddr base k) ((storeRegs base k s).getV (regOfNat k)) (storeRegs base k s)
    exact ⟨m', l ++ l', by rw [storeRegs_succ, e', e]; simp⟩

/-- Whatever the state, a run of loads touches the V registers and the diagnostic output alone. -/
theorem loadRegs_shape (base : Word) (n : Nat) (s : State) :
    ∃ v l, loadRegs base n s = { s with v := v, log := s.log ++ l } := by
  induction n with
  | zero => exact ⟨s.v, [], by simp only [List.append_nil]; rfl⟩
  | succ k ih =>
    obtain ⟨v, l, e⟩ := ih
    rw [loadRegs_succ, read8_snd, e]
    split
    · exact ⟨_, l, rfl⟩
    · exact ⟨_, l ++ [_], by simp only [← List.append_assoc]; rfl⟩

/-! ### Pixels -/

/-- The pixel view sees a display byte written only in the eight pixels of that byte (R36). -/
theorem pixel_setByte {s : State} (h : memWf s.mem = true) (a : Nat) (b : Byte) (px py : Nat) :
    (s.setByte a b).pixel px py =
      if displayBase + 8 * py + px / 8 = a then b.getLsbD (7 - px % 8) else s.pixel px py := by
  simp only [State.pixel, State.byteAt_setByte h]
  split <;> rfl

/-- Equal bytes in the display region are equal pixels, and the other way round. -/
theorem display_eq_iff_pixels (s t : State) :
    (∀ a, displayBase ≤ a → a < displayBase + displayBytes → t.byteAt a = s.byteAt a) ↔
      ∀ px < 64, ∀ py < 32, t.pixel px py = s.pixel px py := by
  constructor
  · intro h px hx py hy
    simp only [State.pixel]
    rw [h _ (by simp only [displayBase]; omega) (by simp only [displayBase, displayBytes]; omega)]
  · intro h a ha hb
    simp only [displayBase, displayBytes] at ha hb
    apply BitVec.eq_of_getLsbD_eq
    intro k hk
    have := h ((a - 0x100) % 8 * 8 + (7 - k)) (by omega) ((a - 0x100) / 8) (by omega)
    simp only [State.pixel, displayBase] at this
    have e1 : 0x100 + 8 * ((a - 0x100) / 8) + ((a - 0x100) % 8 * 8 + (7 - k)) / 8 = a := by omega
    have e2 : 7 - ((a - 0x100) % 8 * 8 + (7 - k)) % 8 = k := by omega
    rwa [e1, e2] at this

/-! ### Rows in the pixel view -/

/-- A row covers a pixel exactly when its left or its right part has a 1 in that pixel's display byte (R171, R173). -/
theorem rowCovers_iff (xc yc : Byte) (r : Nat) (b : Byte) {px py : Nat} (hx : px < 64) (hy : py < 32) :
    rowCovers xc yc r b px py = true ↔
      (displayBase + 8 * py + px / 8 = leftAddr xc yc r ∧ (b >>> (xc.toNat % 64 % 8)).getLsbD (7 - px % 8) = true) ∨
      (displayBase + 8 * py + px / 8 = rightAddr xc yc r ∧ (b <<< (8 - xc.toNat % 64 % 8)).getLsbD (7 - px % 8) =
          true) := by
  simp only [rowCovers, leftAddr, rightAddr, Bool.and_eq_true, decide_eq_true_eq, List.any_eq_true, List.mem_range,
      displayBase]
  generalize hcol : xc.toNat % 64 = col
  have hc : col < 64 := by omega
  generalize hrow : (yc.toNat + r) % 32 = row
  have hr : row < 32 := by omega
  simp only [BitVec.getLsbD_ushiftRight, BitVec.getLsbD_shiftLeft, Bool.and_eq_true, decide_eq_true_eq,
      Bool.not_eq_true', decide_eq_false_iff_not]
  constructor
  · rintro ⟨rfl, j, hj, e, hb⟩
    by_cases hm : col % 8 + j < 8
    · left
      have : col % 8 + (7 - px % 8) = 7 - j := by omega
      exact ⟨by omega, by rw [this]; exact hb⟩
    · right
      have : 7 - px % 8 - (8 - col % 8) = 7 - j := by omega
      exact ⟨by omega, ⟨by omega, by omega⟩, by rw [this]; exact hb⟩
  · rintro (⟨e, hb⟩ | ⟨e, ⟨h1, h2⟩, hb⟩)
    · have hlt : col % 8 + (7 - px % 8) < 8 := by
        by_contra hge
        rw [BitVec.getLsbD_of_ge _ _ (by omega)] at hb; cases hb
      refine ⟨by omega, px % 8 - col % 8, by omega, by omega, ?_⟩
      rwa [show 7 - (px % 8 - col % 8) = col % 8 + (7 - px % 8) by omega]
    · refine ⟨by omega, 8 + px % 8 - col % 8, by omega, by omega, ?_⟩
      rwa [show 7 - (8 + px % 8 - col % 8) = 7 - px % 8 - (8 - col % 8) by omega]

/-- What every byte reads as after a row (R171). -/
theorem byteAt_drawRow {d : Bool × State} (h : memWf d.2.mem = true) (xc yc : Byte) (addr : Word) (r p : Nat) :
    (drawRow xc yc addr r d).2.byteAt p =
      if p = leftAddr xc yc r then d.2.byteAt p ^^^ (readableByte d.2 (offsetAddr addr r) >>> (xc.toNat % 64 % 8))
      else if p = rightAddr xc yc r then d.2.byteAt p ^^^ (readableByte d.2 (offsetAddr addr r) <<< (8 - xc.toNat %
          64 % 8))
      else d.2.byteAt p := by
  have h1 : memWf (read8 (offsetAddr addr r) d.2).2.mem = true := by rwa [read8_mem]
  have hne := leftAddr_ne_rightAddr xc yc r
  simp only [drawRow_eq, xorByte_snd, State.byteAt_setByte (State.memWf_setByte h1 _ _), State.byteAt_setByte h1,
      byteAt_read8]
  by_cases e1 : p = leftAddr xc yc r
  · subst e1
    rw [if_neg hne, if_pos rfl, if_pos rfl]
  · by_cases e2 : p = rightAddr xc yc r
    · subst e2
      rw [if_pos rfl, if_neg hne.symm, if_neg e1, if_pos rfl]
    · rw [if_neg e2, if_neg e1, if_neg e1, if_neg e2]

/-- What every pixel is after a row (R173). -/
theorem pixel_drawRow {d : Bool × State} (h : memWf d.2.mem = true) (xc yc : Byte) (addr : Word) (r : Nat) {px py : Nat}
    (hx : px < 64) (hy : py < 32) :
    (drawRow xc yc addr r d).2.pixel px py =
      Bool.xor (d.2.pixel px py) (rowCovers xc yc r (readableByte d.2 (offsetAddr addr r)) px py) := by
  have hc := rowCovers_iff xc yc r (readableByte d.2 (offsetAddr addr r)) hx hy
  have hne := leftAddr_ne_rightAddr xc yc r
  simp only [State.pixel, byteAt_drawRow h]
  split
  · next e =>
    have : displayBase + 8 * py + px / 8 ≠ rightAddr xc yc r := by rw [e]; exact hne
    simp only [e, true_and, hne, false_and, or_false] at hc
    rw [BitVec.getLsbD_xor, Bool.eq_iff_iff.2 hc]
  · split
    · next e1 e =>
      simp only [e, true_and] at hc
      have : ¬ rightAddr xc yc r = leftAddr xc yc r := fun e => hne e.symm
      simp only [this, false_and, false_or] at hc
      rw [BitVec.getLsbD_xor, Bool.eq_iff_iff.2 hc]
    · next e1 e2 =>
      simp only [e1, e2, false_and, or_false, iff_false, Bool.not_eq_true] at hc
      rw [hc, Bool.xor_false]

/-- One row of the display engine draws the row, in the pixel view's terms. -/
theorem rowDrawn_drawRow {d : Bool × State} (h : memWf d.2.mem = true) (xc yc : Byte) (addr : Word) (r : Nat) :
    RowDrawn xc yc addr r d.2 (drawRow xc yc addr r d).2 where
  pixels := fun _ hx _ hy => pixel_drawRow h xc yc addr r hx hy
  events := by
    simp only [drawRow_eq, xorByte_snd, read8_snd]
    split <;> simp
  frame := by
    refine (changesOnly_drawRow h xc yc addr r).mono ?_
    intro c hc
    have hl := leftAddr_range xc yc r
    have hr := rightAddr_range xc yc r
    simp only [List.mem_cons, mem_bytesFrom, List.not_mem_nil, or_false, displayBase, displayBytes] at hc ⊢
    rcases hc with rfl | rfl | rfl
    · exact .inl rfl
    · exact .inr ⟨leftAddr xc yc r - 0x100, by omega, congrArg _ (by omega)⟩
    · exact .inr ⟨rightAddr xc yc r - 0x100, by omega, congrArg _ (by omega)⟩

/-- Two bytes meet in a 1 bit. -/
theorem and_ne_zero_iff (x p : Byte) : (x &&& p != 0) = true ↔ ∃ k < 8, x.getLsbD k = true ∧ p.getLsbD k = true := by
  rw [bne_iff_ne, ne_eq, ← not_iff_not]
  push Not
  constructor
  · intro h k hk hx hp
    have := congrArg (fun v : Byte => v.getLsbD k) h
    simp [hx, hp] at this
  · intro h
    apply BitVec.eq_of_getLsbD_eq
    intro k hk
    have := h k hk
    simp only [BitVec.getLsbD_and]
    cases hx : x.getLsbD k <;> cases hp : p.getLsbD k <;> simp_all

/-- A row sets the collision exactly when it meets a set pixel (R174). -/
theorem drawRow_fst {d : Bool × State} (h : memWf d.2.mem = true) (xc yc : Byte) (addr : Word) (r : Nat) :
    (drawRow xc yc addr r d).1 = true ↔ d.1 = true ∨ RowCollides xc yc addr r d.2 := by
  have h1 : memWf (read8 (offsetAddr addr r) d.2).2.mem = true := by rwa [read8_mem]
  have hne := leftAddr_ne_rightAddr xc yc r
  simp only [drawRow_eq, xorByte_fst, xorByte_snd, State.byteAt_setByte h1, if_neg hne.symm, byteAt_read8,
      Bool.or_eq_true, and_ne_zero_iff, or_assoc]
  refine or_congr_right ?_
  have hl := leftAddr_range xc yc r
  have hr := rightAddr_range xc yc r
  constructor
  · rintro (⟨k, hk, hx, hp⟩ | ⟨k, hk, hx, hp⟩)
    · refine ⟨(leftAddr xc yc r - 0x100) % 8 * 8 + (7 - k), by omega, (leftAddr xc yc r - 0x100) / 8, by omega, ?_, ?_⟩
      · simp only [State.pixel, displayBase]
        rw [show 0x100 + 8 * ((leftAddr xc yc r - 0x100) / 8) + ((leftAddr xc yc r - 0x100) % 8 * 8 + (7 - k)) / 8 =
            leftAddr xc yc r by omega,
          show 7 - ((leftAddr xc yc r - 0x100) % 8 * 8 + (7 - k)) % 8 = k by omega]
        exact hx
      · rw [rowCovers_iff _ _ _ _ (by omega) (by omega)]
        left
        rw [show 7 - ((leftAddr xc yc r - 0x100) % 8 * 8 + (7 - k)) % 8 = k by omega]
        exact ⟨by simp only [displayBase]; omega, hp⟩
    · refine ⟨(rightAddr xc yc r - 0x100) % 8 * 8 + (7 - k), by omega, (rightAddr xc yc r - 0x100) / 8, by omega, ?_,
          ?_⟩
      · simp only [State.pixel, displayBase]
        rw [show 0x100 + 8 * ((rightAddr xc yc r - 0x100) / 8) + ((rightAddr xc yc r - 0x100) % 8 * 8 + (7 - k)) / 8
            = rightAddr xc yc r by omega,
          show 7 - ((rightAddr xc yc r - 0x100) % 8 * 8 + (7 - k)) % 8 = k by omega]
        exact hx
      · rw [rowCovers_iff _ _ _ _ (by omega) (by omega)]
        right
        rw [show 7 - ((rightAddr xc yc r - 0x100) % 8 * 8 + (7 - k)) % 8 = k by omega]
        exact ⟨by simp only [displayBase]; omega, hp⟩
  · rintro ⟨px, hx, py, hy, hpix, hcov⟩
    rw [rowCovers_iff _ _ _ _ hx hy] at hcov
    simp only [State.pixel] at hpix
    rcases hcov with ⟨e, hb⟩ | ⟨e, hb⟩
    · rw [e] at hpix; exact .inl ⟨_, by omega, hpix, hb⟩
    · rw [e] at hpix; exact .inr ⟨_, by omega, hpix, hb⟩

/-! ### Values after the bulk transfers -/

/-- A run of stores leaves every register. -/
theorem getV_storeRegs (base : Word) (n : Nat) (s : State) (x : Nibble) : (storeRegs base n s).getV x = s.getV x := by
  obtain ⟨m, l, e⟩ := storeRegs_shape base n s
  rw [e]; rfl

/-- A run of stores puts V[k] at offset k, where the write is permitted (R212). -/
theorem byteAt_storeRegs {s : State} (h : memWf s.mem = true) (base : Word) (n k : Nat) (hn : n ≤ 16) (hk : k < n)
    (hp : permitted8 (offsetAddr base k) = true) : (storeRegs base n s).byteAt (offsetAddr base k).toNat = s.getV
        (regOfNat k) := by
  induction n with
  | zero => omega
  | succ j ih =>
    rw [storeRegs_succ, byteAt_write8 (memWf_storeRegs h _ _)]
    by_cases e : k = j
    · subst e; rw [if_pos ⟨hp, rfl⟩, getV_storeRegs]
    · rw [if_neg (fun ⟨_, h⟩ => e (offsetAddr_inj (by omega) (by omega) h)), ih (by omega) (by omega)]

/-- The events of a run of stores. -/
theorem log_storeRegs (base : Word) (n : Nat) (s : State) : (storeRegs base n s).log = s.log ++ refusals .write base
    n := by
  induction n with
  | zero => simp [storeRegs, refusals]
  | succ k ih => rw [storeRegs_succ, log_write8, ih, refusals_succ, List.append_assoc]

/-- A run of loads leaves what every read gives. -/
theorem readableByte_loadRegs (base : Word) (n : Nat) (s : State) (a : Word) : readableByte (loadRegs base n s) a =
    readableByte s a := by
  simp only [readableByte, State.byteAt, loadRegs_mem]

/-- The 16 register numbers differ. -/
theorem regOfNat_inj {j k : Nat} (hj : j < 16) (hk : k < 16) (h : regOfNat j = regOfNat k) : j = k := by
  have := congrArg BitVec.toNat h
  simp [regOfNat] at this; omega

/-- What every register holds after a run of loads (R214). -/
theorem getV_loadRegs (base : Word) (n : Nat) (s : State) (k : Nat) (hn : n ≤ 16) (hk : k < 16) :
    (loadRegs base n s).getV (regOfNat k) = if k < n then readableByte s (offsetAddr base k) else s.getV (regOfNat k)
        := by
  induction n with
  | zero => simp [loadRegs]
  | succ j ih =>
    rw [loadRegs_succ, State.getV_setV, readableByte_loadRegs, getV_read8]
    by_cases e : k = j
    · subst e; rw [if_pos rfl, if_pos (by omega)]
    · rw [if_neg (fun h => e (regOfNat_inj (by omega) (by omega) h)), ih (by omega)]
      by_cases h2 : k < j
      · rw [if_pos h2, if_pos (by omega)]
      · rw [if_neg h2, if_neg (by omega)]

/-- The events of a run of loads. -/
theorem log_loadRegs (base : Word) (n : Nat) (s : State) : (loadRegs base n s).log = s.log ++ refusals .read base n
    := by
  induction n with
  | zero => simp [loadRegs, refusals]
  | succ k ih =>
    rw [loadRegs_succ, State.setV_log, read8_snd, refusals_succ, ← List.append_assoc, ← ih]
    split <;> simp

/-! ### Clearing the display -/

/-- Whatever the state, clearing the display writes memory alone. -/
theorem clearDisplay_shape (s : State) : ∃ m, clearDisplay s = { s with mem := m } :=
  ⟨memWriteBytes s.mem displayBase (List.replicate displayBytes 0), by simp only [clearDisplay, State.setBytes]⟩

theorem memWf_clearDisplay {s : State} (h : memWf s.mem = true) : memWf (clearDisplay s).mem = true :=
  State.memWf_setBytes h _ _

theorem memInRegions_clearDisplay {s : State} (h : memInRegions s.mem = true) :
    memInRegions (clearDisplay s).mem = true := by
  rw [clearDisplay, State.setBytes_mem]
  exact memInRegions_memWriteBytes h (by decide) (by rw [List.length_replicate]; decide)

end Sys2Proof.Machine
end

