-- ==== Sys2Proof/Laws/Encoding.lean ====
section
/-! SUPPORT. The fields of an assembled word, a word from its fields, and a word from its bytes. -/

namespace Sys2Proof

/-! ### Fields of an assembled word -/

@[simp] theorem fieldOp_wordXkk (op x : Nibble) (kk : Byte) : fieldOp (wordXkk op x kk) = op := by
  apply BitVec.eq_of_getLsbD_eq
  intro k hk
  have h1 : ¬ 12 + k < 8 := by omega
  have h2 : ¬ 12 + k - 8 < 4 := by omega
  have h3 : 12 + k - 8 - 4 = k := by omega
  simp only [fieldOp, wordXkk, BitVec.getLsbD_append, BitVec.getLsbD_extractLsb', if_neg h1, if_neg h2, h3]
  simp [hk]

@[simp] theorem fieldX_wordXkk (op x : Nibble) (kk : Byte) : fieldX (wordXkk op x kk) = x := by
  apply BitVec.eq_of_getLsbD_eq
  intro k hk
  simp only [fieldX, wordXkk, BitVec.getLsbD_append, BitVec.getLsbD_extractLsb']
  simp [hk]

@[simp] theorem fieldKk_wordXkk (op x : Nibble) (kk : Byte) : fieldKk (wordXkk op x kk) = kk := by
  apply BitVec.eq_of_getLsbD_eq
  intro k hk
  simp only [fieldKk, wordXkk, BitVec.getLsbD_append, BitVec.getLsbD_extractLsb']
  simp [hk]

@[simp] theorem fieldOp_wordNnn (op : Nibble) (nnn : Addr12) : fieldOp (wordNnn op nnn) = op := by
  apply BitVec.eq_of_getLsbD_eq
  intro k hk
  simp only [fieldOp, wordNnn, BitVec.getLsbD_append, BitVec.getLsbD_extractLsb']
  simp [hk]

@[simp] theorem fieldNnn_wordNnn (op : Nibble) (nnn : Addr12) : fieldNnn (wordNnn op nnn) = nnn := by
  apply BitVec.eq_of_getLsbD_eq
  intro k hk
  simp only [fieldNnn, wordNnn, BitVec.getLsbD_append, BitVec.getLsbD_extractLsb']
  simp [hk]

@[simp] theorem fieldOp_wordXyn (op x y n : Nibble) : fieldOp (wordXyn op x y n) = op :=
  fieldOp_wordXkk op x (y ++ n)

@[simp] theorem fieldX_wordXyn (op x y n : Nibble) : fieldX (wordXyn op x y n) = x := fieldX_wordXkk op x (y ++ n)

@[simp] theorem fieldY_wordXyn (op x y n : Nibble) : fieldY (wordXyn op x y n) = y := by
  apply BitVec.eq_of_getLsbD_eq
  intro k hk
  have h : 4 + k < 8 := by omega
  simp only [fieldY, wordXyn, BitVec.getLsbD_append, BitVec.getLsbD_extractLsb']
  simp [hk, h]

@[simp] theorem fieldN_wordXyn (op x y n : Nibble) : fieldN (wordXyn op x y n) = n := by
  apply BitVec.eq_of_getLsbD_eq
  intro k hk
  have h : k < 8 := by omega
  simp only [fieldN, wordXyn, BitVec.getLsbD_append, BitVec.getLsbD_extractLsb']
  simp [hk, h]

/-! ### A word from its fields -/

theorem wordXkk_fields (w : Word) : wordXkk (fieldOp w) (fieldX w) (fieldKk w) = w := by
  apply BitVec.eq_of_getLsbD_eq
  intro k hk
  simp only [wordXkk, fieldOp, fieldX, fieldKk, BitVec.getLsbD_append, BitVec.getLsbD_extractLsb']
  by_cases h : k < 8
  · simp [h]
  · by_cases h2 : k - 8 < 4
    · have e : 8 + (k - 8) = k := by omega
      simp [h, h2, e]
    · have e : 12 + (k - 8 - 4) = k := by omega
      have h3 : k - 8 - 4 < 4 := by omega
      simp [h, h2, e, h3]

theorem wordNnn_fields (w : Word) : wordNnn (fieldOp w) (fieldNnn w) = w := by
  apply BitVec.eq_of_getLsbD_eq
  intro k hk
  simp only [wordNnn, fieldOp, fieldNnn, BitVec.getLsbD_append, BitVec.getLsbD_extractLsb']
  by_cases h : k < 12
  · simp [h]
  · have e : 12 + (k - 12) = k := by omega
    have h3 : k - 12 < 4 := by omega
    simp [h, e, h3]

theorem fieldKk_eq_append (w : Word) : fieldKk w = fieldY w ++ fieldN w := by
  apply BitVec.eq_of_getLsbD_eq
  intro k hk
  simp only [fieldY, fieldN, fieldKk, BitVec.getLsbD_append, BitVec.getLsbD_extractLsb']
  by_cases h : k < 4
  · simp [h, hk]
  · have e : 4 + (k - 4) = k := by omega
    have h3 : k - 4 < 4 := by omega
    simp [h, e, h3, hk]

theorem wordXyn_fields (w : Word) : wordXyn (fieldOp w) (fieldX w) (fieldY w) (fieldN w) = w := by
  have := wordXkk_fields w
  rwa [fieldKk_eq_append] at this

/-! ### A word and its bytes -/

@[simp] theorem wordOfBytes_hiByte_loByte (w : Word) : wordOfBytes (hiByte w) (loByte w) = w := by
  apply BitVec.eq_of_getLsbD_eq
  intro k hk
  simp only [wordOfBytes, hiByte, loByte, BitVec.getLsbD_append, BitVec.getLsbD_extractLsb']
  by_cases h : k < 8
  · simp [h]
  · have e : 8 + (k - 8) = k := by omega
    have h3 : k - 8 < 8 := by omega
    simp [h, e, h3]

@[simp] theorem hiByte_wordOfBytes (hi lo : Byte) : hiByte (wordOfBytes hi lo) = hi := by
  apply BitVec.eq_of_getLsbD_eq
  intro k hk
  simp only [hiByte, wordOfBytes, BitVec.getLsbD_append, BitVec.getLsbD_extractLsb']
  simp [hk]

@[simp] theorem loByte_wordOfBytes (hi lo : Byte) : loByte (wordOfBytes hi lo) = lo := by
  apply BitVec.eq_of_getLsbD_eq
  intro k hk
  simp only [loByte, wordOfBytes, BitVec.getLsbD_append, BitVec.getLsbD_extractLsb']
  simp [hk]

/-- A 4-bit number as its value, for the decoder's tables. -/
theorem nibble_cases (n : Nibble) :
    n = 0 ∨ n = 1 ∨ n = 2 ∨ n = 3 ∨ n = 4 ∨ n = 5 ∨ n = 6 ∨ n = 7 ∨
      n = 8 ∨ n = 9 ∨ n = 10 ∨ n = 11 ∨ n = 12 ∨ n = 13 ∨ n = 14 ∨ n = 15 := by
  revert n
  decide

end Sys2Proof
end

