-- ==== Sys2Proof/Laws/PerInstr.lean ====
section
/-! SUPPORT. Per instruction: the encoder sets the fixed bits that the opcode table gives the row, its op nibble and, where
the row has one, its sub nibble or sub byte (R82, R85). -/

namespace Sys2Proof.Laws.EncodingMatchesTable

/-- The fixed low bits of a row: none, the lowest nibble, or the lowest byte. -/
inductive Sub where
  | none
  | nibble (n : Nibble)
  | byte (b : Byte)

/-- A word has the fixed bits of a row. -/
def Fixed (op : Nibble) (sub : Sub) (w : Word) : Prop :=
  fieldOp w = op ∧
    match sub with
    | .none => True
    | .nibble n => fieldN w = n
    | .byte b => fieldKk w = b

/-- The word of an instruction has the fixed bits of the instruction's row in spec/opcode_table.json. -/
def Statement : Instr → Prop
  | .cls ign => Fixed 0x0 (.byte 0xE0) (encode (.cls ign))
  | .ret ign => Fixed 0x0 (.byte 0xEE) (encode (.ret ign))
  | .jp nnn => Fixed 0x1 .none (encode (.jp nnn))
  | .call nnn => Fixed 0x2 .none (encode (.call nnn))
  | .seImm x kk => Fixed 0x3 .none (encode (.seImm x kk))
  | .sneImm x kk => Fixed 0x4 .none (encode (.sneImm x kk))
  | .seReg x y => Fixed 0x5 (.nibble 0x0) (encode (.seReg x y))
  | .ldImm x kk => Fixed 0x6 .none (encode (.ldImm x kk))
  | .addImm x kk => Fixed 0x7 .none (encode (.addImm x kk))
  | .ldReg x y => Fixed 0x8 (.nibble 0x0) (encode (.ldReg x y))
  | .orReg x y => Fixed 0x8 (.nibble 0x1) (encode (.orReg x y))
  | .andReg x y => Fixed 0x8 (.nibble 0x2) (encode (.andReg x y))
  | .xorReg x y => Fixed 0x8 (.nibble 0x3) (encode (.xorReg x y))
  | .addReg x y => Fixed 0x8 (.nibble 0x4) (encode (.addReg x y))
  | .subReg x y => Fixed 0x8 (.nibble 0x5) (encode (.subReg x y))
  | .shrReg x y => Fixed 0x8 (.nibble 0x6) (encode (.shrReg x y))
  | .subnReg x y => Fixed 0x8 (.nibble 0x7) (encode (.subnReg x y))
  | .shlReg x y => Fixed 0x8 (.nibble 0xE) (encode (.shlReg x y))
  | .sneReg x y => Fixed 0x9 (.nibble 0x0) (encode (.sneReg x y))
  | .ldI nnn => Fixed 0xA .none (encode (.ldI nnn))
  | .jpV0 nnn => Fixed 0xB .none (encode (.jpV0 nnn))
  | .rnd x kk => Fixed 0xC .none (encode (.rnd x kk))
  | .drw x y n => Fixed 0xD .none (encode (.drw x y n))
  | .skp x => Fixed 0xE (.byte 0x9E) (encode (.skp x))
  | .sknp x => Fixed 0xE (.byte 0xA1) (encode (.sknp x))
  | .ldFromDt x => Fixed 0xF (.byte 0x07) (encode (.ldFromDt x))
  | .ldKey x => Fixed 0xF (.byte 0x0A) (encode (.ldKey x))
  | .ldToDt x => Fixed 0xF (.byte 0x15) (encode (.ldToDt x))
  | .ldToSt x => Fixed 0xF (.byte 0x18) (encode (.ldToSt x))
  | .addI x => Fixed 0xF (.byte 0x1E) (encode (.addI x))
  | .ldF x => Fixed 0xF (.byte 0x29) (encode (.ldF x))
  | .ldBcd x => Fixed 0xF (.byte 0x33) (encode (.ldBcd x))
  | .ldStore x => Fixed 0xF (.byte 0x55) (encode (.ldStore x))
  | .ldLoad x => Fixed 0xF (.byte 0x65) (encode (.ldLoad x))

theorem cls (ign : Nibble) : Statement (.cls ign) := by simp [Statement, Fixed, encode]

theorem ret (ign : Nibble) : Statement (.ret ign) := by simp [Statement, Fixed, encode]

theorem jp (nnn : Addr12) : Statement (.jp nnn) := by simp [Statement, Fixed, encode]

theorem call (nnn : Addr12) : Statement (.call nnn) := by simp [Statement, Fixed, encode]

theorem seImm (x : Nibble) (kk : Byte) : Statement (.seImm x kk) := by simp [Statement, Fixed, encode]

theorem sneImm (x : Nibble) (kk : Byte) : Statement (.sneImm x kk) := by simp [Statement, Fixed, encode]

theorem seReg (x : Nibble) (y : Nibble) : Statement (.seReg x y) := by simp [Statement, Fixed, encode]

theorem ldImm (x : Nibble) (kk : Byte) : Statement (.ldImm x kk) := by simp [Statement, Fixed, encode]

theorem addImm (x : Nibble) (kk : Byte) : Statement (.addImm x kk) := by simp [Statement, Fixed, encode]

theorem ldReg (x : Nibble) (y : Nibble) : Statement (.ldReg x y) := by simp [Statement, Fixed, encode]

theorem orReg (x : Nibble) (y : Nibble) : Statement (.orReg x y) := by simp [Statement, Fixed, encode]

theorem andReg (x : Nibble) (y : Nibble) : Statement (.andReg x y) := by simp [Statement, Fixed, encode]

theorem xorReg (x : Nibble) (y : Nibble) : Statement (.xorReg x y) := by simp [Statement, Fixed, encode]

theorem addReg (x : Nibble) (y : Nibble) : Statement (.addReg x y) := by simp [Statement, Fixed, encode]

theorem subReg (x : Nibble) (y : Nibble) : Statement (.subReg x y) := by simp [Statement, Fixed, encode]

theorem shrReg (x : Nibble) (y : Nibble) : Statement (.shrReg x y) := by simp [Statement, Fixed, encode]

theorem subnReg (x : Nibble) (y : Nibble) : Statement (.subnReg x y) := by simp [Statement, Fixed, encode]

theorem shlReg (x : Nibble) (y : Nibble) : Statement (.shlReg x y) := by simp [Statement, Fixed, encode]

theorem sneReg (x : Nibble) (y : Nibble) : Statement (.sneReg x y) := by simp [Statement, Fixed, encode]

theorem ldI (nnn : Addr12) : Statement (.ldI nnn) := by simp [Statement, Fixed, encode]

theorem jpV0 (nnn : Addr12) : Statement (.jpV0 nnn) := by simp [Statement, Fixed, encode]

theorem rnd (x : Nibble) (kk : Byte) : Statement (.rnd x kk) := by simp [Statement, Fixed, encode]

theorem drw (x : Nibble) (y : Nibble) (n : Nibble) : Statement (.drw x y n) := by simp [Statement, Fixed, encode]

theorem skp (x : Nibble) : Statement (.skp x) := by simp [Statement, Fixed, encode]

theorem sknp (x : Nibble) : Statement (.sknp x) := by simp [Statement, Fixed, encode]

theorem ldFromDt (x : Nibble) : Statement (.ldFromDt x) := by simp [Statement, Fixed, encode]

theorem ldKey (x : Nibble) : Statement (.ldKey x) := by simp [Statement, Fixed, encode]

theorem ldToDt (x : Nibble) : Statement (.ldToDt x) := by simp [Statement, Fixed, encode]

theorem ldToSt (x : Nibble) : Statement (.ldToSt x) := by simp [Statement, Fixed, encode]

theorem addI (x : Nibble) : Statement (.addI x) := by simp [Statement, Fixed, encode]

theorem ldF (x : Nibble) : Statement (.ldF x) := by simp [Statement, Fixed, encode]

theorem ldBcd (x : Nibble) : Statement (.ldBcd x) := by simp [Statement, Fixed, encode]

theorem ldStore (x : Nibble) : Statement (.ldStore x) := by simp [Statement, Fixed, encode]

theorem ldLoad (x : Nibble) : Statement (.ldLoad x) := by simp [Statement, Fixed, encode]

end Sys2Proof.Laws.EncodingMatchesTable
end

