-- ==== Sys2Proof/Tests/Slice0.lean ====
section
/-! SUPPORT. Tests on single steps and transactions, and the witnesses that the statements' hypotheses can be met. Every
expected value is a vector of 95_test_vectors.md (named by its id) or is worked out by hand from the rule named. -/

namespace Sys2Proof.Tests

open Sys2Proof.Machine

/-! ## Helpers -/

/-- Power-on with some registers and some bytes of memory set, the vectors' start states. -/
def start (regs : List (Nibble × Byte)) (bytes : List (Nat × Byte)) : State :=
  bytes.foldl (fun s c => s.setByte c.1 c.2) (regs.foldl (fun s r => s.setV r.1 r.2) State.reset)

/-- The outcome is a next state that passes a check. -/
def holdsNext (o : Result) (p : State → Bool) : Bool :=
  match o with
  | .next t => p t
  | .fault _ => false
  | .refused _ => false

/-- One step on a word placed at PC, and a check of the state after. -/
def after (s : State) (w : Nat) (p : State → Bool) : Bool := holdsNext (step (s.withFetchWord 16 w)) p

/-- The bytes at consecutive addresses are these. -/
def bytesAt (t : State) (base : Nat) (bs : List Byte) : Bool := decide (memReadBytes t.mem base bs.length = bs)

/-! ## WellFormed: each check refuses an ill-formed term -/

theorem test_wf_assembled : (Instr.cls 0).isAssembled = true ∧ (Instr.cls 1).isAssembled = false ∧
    (Instr.ret 0).isAssembled = true ∧ (Instr.ret 0xF).isAssembled = false := by decide

theorem test_wf_key : keyNumberOk 15 = true ∧ keyNumberOk 16 = false := by decide

theorem test_wf_image : imageFits (List.replicate 3583 0) = true ∧ imageFits (List.replicate 3584 0) = false := by
  simp only [imageFits, List.length_replicate]
  decide

/-! ## Decode: words written out from 30_encoding.md §2 and §3, field by field -/

theorem test_decode_control :
    decode (0b0000#4 ++ 0b0000#4 ++ 0b11100000#8) = some (.cls 0) ∧
    decode (0b0000#4 ++ 0b0101#4 ++ 0b11101110#8) = some (.ret 5) ∧
    decode (0b0001#4 ++ 0b001000000100#12) = some (.jp 0x204) ∧
    decode (0b0010#4 ++ 0b101010101011#12) = some (.call 0xAAB) ∧
    decode (0b0011#4 ++ 0b0001#4 ++ 0b00010000#8) = some (.seImm 1 0x10) ∧
    decode (0b0100#4 ++ 0b1000#4 ++ 0b10000001#8) = some (.sneImm 8 0x81) ∧
    decode (0b0101#4 ++ 0b0001#4 ++ 0b0010#4 ++ 0b0000#4) = some (.seReg 1 2) ∧
    decode (0b1001#4 ++ 0b1100#4 ++ 0b0011#4 ++ 0b0000#4) = some (.sneReg 0xC 3) ∧
    decode (0b1011#4 ++ 0b110000000001#12) = some (.jpV0 0xC01) := by decide

theorem test_decode_immediate :
    decode (0b0110#4 ++ 0b1010#4 ++ 0b00000101#8) = some (.ldImm 0xA 0x05) ∧
    decode (0b0111#4 ++ 0b0010#4 ++ 0b11111110#8) = some (.addImm 2 0xFE) := by decide

theorem test_decode_alu :
    decode (0b1000#4 ++ 0b0001#4 ++ 0b0010#4 ++ 0b0000#4) = some (.ldReg 1 2) ∧
    decode (0b1000#4 ++ 0b0001#4 ++ 0b0010#4 ++ 0b0001#4) = some (.orReg 1 2) ∧
    decode (0b1000#4 ++ 0b0001#4 ++ 0b0010#4 ++ 0b0010#4) = some (.andReg 1 2) ∧
    decode (0b1000#4 ++ 0b0001#4 ++ 0b0010#4 ++ 0b0011#4) = some (.xorReg 1 2) ∧
    decode (0b1000#4 ++ 0b0001#4 ++ 0b0010#4 ++ 0b0100#4) = some (.addReg 1 2) ∧
    decode (0b1000#4 ++ 0b0001#4 ++ 0b0010#4 ++ 0b0101#4) = some (.subReg 1 2) ∧
    decode (0b1000#4 ++ 0b0001#4 ++ 0b0010#4 ++ 0b0110#4) = some (.shrReg 1 2) ∧
    decode (0b1000#4 ++ 0b0001#4 ++ 0b0010#4 ++ 0b0111#4) = some (.subnReg 1 2) ∧
    decode (0b1000#4 ++ 0b0001#4 ++ 0b0010#4 ++ 0b1110#4) = some (.shlReg 1 2) := by decide

theorem test_decode_index_random_draw :
    decode (0b1010#4 ++ 0b001100000000#12) = some (.ldI 0x300) ∧
    decode (0b1111#4 ++ 0b0100#4 ++ 0b00011110#8) = some (.addI 4) ∧
    decode (0b1111#4 ++ 0b0101#4 ++ 0b00101001#8) = some (.ldF 5) ∧
    decode (0b1100#4 ++ 0b0011#4 ++ 0b00001111#8) = some (.rnd 3 0x0F) ∧
    decode (0b1101#4 ++ 0b0000#4 ++ 0b0001#4 ++ 0b0101#4) = some (.drw 0 1 5) := by decide

theorem test_decode_input_timers_bulk :
    decode (0b1110#4 ++ 0b0010#4 ++ 0b10011110#8) = some (.skp 2) ∧
    decode (0b1110#4 ++ 0b0010#4 ++ 0b10100001#8) = some (.sknp 2) ∧
    decode (0b1111#4 ++ 0b0011#4 ++ 0b00001010#8) = some (.ldKey 3) ∧
    decode (0b1111#4 ++ 0b0001#4 ++ 0b00000111#8) = some (.ldFromDt 1) ∧
    decode (0b1111#4 ++ 0b0001#4 ++ 0b00010101#8) = some (.ldToDt 1) ∧
    decode (0b1111#4 ++ 0b0001#4 ++ 0b00011000#8) = some (.ldToSt 1) ∧
    decode (0b1111#4 ++ 0b0001#4 ++ 0b00110011#8) = some (.ldBcd 1) ∧
    decode (0b1111#4 ++ 0b0010#4 ++ 0b01010101#8) = some (.ldStore 2) ∧
    decode (0b1111#4 ++ 0b1111#4 ++ 0b01100101#8) = some (.ldLoad 0xF) := by decide

/-- E4–E7, E9, E13–E15: words that are no instruction. -/
theorem test_decode_unknown :
    ([0x0000, 0x0123, 0x00E1, 0x5121, 0x912F, 0xE0A0, 0xE09F, 0xF000, 0xF030, 0xF056, 0xF0FF, 0xFFFF] :
      List Word).all (fun w => decode w == none) = true := by decide

/-- E10 and E11: the holes of op 8, and the instruction among them. -/
theorem test_decode_alu_holes :
    ([0x8008, 0x8009, 0x800A, 0x800B, 0x800C, 0x800D, 0x800F] : List Word).all (fun w => decode w == none) = true ∧
    decode 0x800E = some (.shlReg 0 0) := by decide

/-- R61 and R81: the byte at the lower address is the more significant, and one instruction takes two bytes. -/
theorem test_decode_bytes :
    (match decodeBytes [0x12, 0x04, 0xFF] with
      | .ok (i, rest) => decide (i = .jp 0x204 ∧ rest = [0xFF])
      | .error _ => false) = true ∧
    (match decodeBytes [0x12] with
      | .ok _ => false
      | .error e => decide (e = .truncated)) = true := by decide

theorem test_decodeTableWord :
    decodeTableWord 16 0xD015 = some (.drw 0 1 5) ∧ decodeTableWord 16 0x5123 = none := by decide

/-! ## Control flow -/

set_option maxRecDepth 8192 in
/-- CF18. -/
theorem test_cls : after (start [(0xF, 1)] [(0x100, 0xFF), (0x1FF, 0x01)]) 0x00E0 (fun t =>
    t.byteAt 0x100 == 0 && t.byteAt 0x1FF == 0 && t.getV 0xF == 1 && t.pc == 0x202) = true := by decide

/-- CF7. -/
theorem test_ret_underrun : after State.reset 0x00EE (fun t =>
    t.run == .halted ⟨.stackUnderrun, 0x200, 0x00EE⟩ && t.pc == 0x202 && t.sp == 0xE0) = true := by decide

/-- CF8. -/
theorem test_ret : after ((start [] [(0xE2, 0x0F), (0xE3, 0xFF)]).setSp 0xE2) 0x00EE (fun t =>
    t.pc == 0x0FFF && t.sp == 0xE0 && t.run == .running) = true := by decide

/-- CF1 and CF3. -/
theorem test_jp : after State.reset 0x1300 (fun t => t.pc == 0x300 && t.run == .running) = true ∧
    after State.reset 0x1202 (fun t => t.pc == 0x202 && t.run == .running) = true := by decide

/-- CF2. -/
theorem test_jp_self : after State.reset 0x1200 (fun t =>
    t.pc == 0x200 && t.run == .pausedOnSelfJump && t.signal == .continue) = true := by decide

/-- CF4. -/
theorem test_call_self : after State.reset 0x2200 (fun t =>
    bytesAt t 0xE2 [0x02, 0x02] && t.sp == 0xE2 && t.pc == 0x200 && t.run == .running) = true := by decide

/-- CF5 and CF6: the 16th nesting level overflows, the 15th succeeds. -/
theorem test_call_depth :
    after (State.reset.setSp 0xFE) 0x2300 (fun t => t.run == .halted ⟨.stackOverflow, 0x200, 0x2300⟩ &&
      t.pc == 0x202 && t.sp == 0xFE && t.mem == (State.reset.withFetchWord 16 0x2300).mem) = true ∧
    after (State.reset.setSp 0xFC) 0x2300 (fun t =>
      t.sp == 0xFE && bytesAt t 0xFE [0x02, 0x02] && t.pc == 0x300) = true := by decide

/-- CF11. -/
theorem test_seImm : after (start [(3, 0x10)] []) 0x3310 (fun t => t.pc == 0x204) = true ∧
    after (start [(3, 0x10)] []) 0x3311 (fun t => t.pc == 0x202) = true := by decide

/-- CF12. -/
theorem test_sneImm : after (start [(3, 0x10)] []) 0x4310 (fun t => t.pc == 0x202) = true ∧
    after (start [(3, 0x10)] []) 0x4311 (fun t => t.pc == 0x204) = true := by decide

/-- CF13 and CF14. -/
theorem test_seReg : after (start [(1, 7), (2, 7)] []) 0x5120 (fun t => t.pc == 0x204) = true ∧
    after (start [(1, 7)] []) 0x5120 (fun t => t.pc == 0x202) = true := by decide

/-- CF13 and CF14. -/
theorem test_sneReg : after (start [(1, 7), (2, 7)] []) 0x9120 (fun t => t.pc == 0x202) = true ∧
    after (start [(1, 7)] []) 0x9120 (fun t => t.pc == 0x204) = true := by decide

/-- CF9. -/
theorem test_jpV0_unmasked : after (start [(0, 0xFF)] []) 0xBFFF (fun t => t.pc == 0x10FE) = true := by decide

/-- CF10. -/
theorem test_jpV0_self : after State.reset 0xB200 (fun t => t.pc == 0x200 && t.run == .running) = true := by decide

/-- CF15: the skipped word is not fetched, and PC is not masked. -/
theorem test_skip_over_last_word :
    after (State.reset.setPc 0xFFC) 0x3000 (fun t => t.pc == 0x1000 && t.log == []) = true := by decide

/-! ## Immediates and the ALU -/

/-- RI2. -/
theorem test_ldImm : after State.reset 0x6FAB (fun t => t.getV 0xF == 0xAB) = true := by decide

/-- RI3 and RI4. -/
theorem test_addImm : after (start [(2, 0xFF), (0xF, 1)] []) 0x7201 (fun t => t.getV 2 == 0 && t.getV 0xF == 1) = true ∧
    after (start [(0xF, 1)] []) 0x7FFF (fun t => t.getV 0xF == 0) = true := by decide

/-- AL1. -/
theorem test_ldReg : after (start [(1, 0x12), (2, 0x34)] []) 0x8120 (fun t => t.getV 1 == 0x34) = true := by decide

/-- AL2. -/
theorem test_or : after (start [(1, 0x0F), (2, 0xF0), (0xF, 7)] []) 0x8121 (fun t =>
    t.getV 1 == 0xFF && t.getV 0xF == 7) = true := by decide

/-- AL3. -/
theorem test_and : after (start [(1, 0x3C), (2, 0x0F), (0xF, 1)] []) 0x8122 (fun t =>
    t.getV 1 == 0x0C && t.getV 0xF == 1) = true := by decide

/-- AL4. -/
theorem test_xor : after (start [(1, 0x5A)] []) 0x8113 (fun t => t.getV 1 == 0) = true := by decide

/-- AL9: VF is the destination, and the carry is written last. -/
theorem test_add_into_flag : after (start [(0xF, 0xFF), (1, 1)] []) 0x8F14 (fun t => t.getV 0xF == 1) = true := by decide

/-- AL10: VF is an operand, read before the flag is written. -/
theorem test_add_from_flag : after (start [(1, 1), (0xF, 0xFF)] []) 0x81F4 (fun t =>
    t.getV 1 == 0 && t.getV 0xF == 1) = true := by decide

/-- AL12 and AL11. -/
theorem test_sub : after (start [(1, 0), (2, 1)] []) 0x8125 (fun t => t.getV 1 == 0xFF && t.getV 0xF == 0) = true ∧
    after (start [(1, 5), (2, 5)] []) 0x8125 (fun t => t.getV 1 == 0 && t.getV 0xF == 1) = true := by decide

/-- AL14. -/
theorem test_sub_into_flag : after (start [(0xF, 3), (1, 5)] []) 0x8F15 (fun t => t.getV 0xF == 0) = true := by decide

/-- AL15 and AL16. -/
theorem test_subn : after (start [(1, 3), (2, 5)] []) 0x8127 (fun t => t.getV 1 == 2 && t.getV 0xF == 1) = true ∧
    after (start [(1, 5), (2, 3)] []) 0x8127 (fun t => t.getV 1 == 0xFE && t.getV 0xF == 0) = true := by decide

/-- AL18 and AL19: the operand is Vy, or Vx under the quirk. -/
theorem test_shr :
    after (start [(1, 0xAA), (2, 5)] []) 0x8126 (fun t => t.getV 1 == 2 && t.getV 0xF == 1) = true ∧
    after { start [(1, 5), (2, 0xAA)] [] with quirkShiftSingle := true } 0x8126 (fun t =>
      t.getV 1 == 2 && t.getV 0xF == 1) = true := by decide

/-- AL23. -/
theorem test_shr_into_flag : after (start [(2, 3)] []) 0x8F26 (fun t => t.getV 0xF == 1) = true := by decide

/-- AL20 and AL21. -/
theorem test_shl :
    after (start [(2, 0x81)] []) 0x812E (fun t => t.getV 1 == 2 && t.getV 0xF == 1) = true ∧
    after { start [(1, 0x81)] [] with quirkShiftSingle := true } 0x812E (fun t =>
      t.getV 1 == 2 && t.getV 0xF == 1) = true := by decide

/-! ## Index, random, draw -/

/-- X1. -/
theorem test_ldI : after State.reset 0xA123 (fun t => t.i == 0x0123) = true := by decide

/-- X3 and X4. -/
theorem test_addI : after ((start [(4, 1)] []).setI 0x0FFF) 0xF41E (fun t => t.i == 0x1000) = true ∧
    after ((start [(4, 1)] []).setI 0xFFFF) 0xF41E (fun t => t.i == 0 && t.getV 0xF == 0) = true := by decide

/-- X6. -/
theorem test_ldF : after (start [(5, 0x1A)] []) 0xF529 (fun t => t.i == 0x00C2) = true := by decide

/-- Q1–Q4: whatever byte is drawn, V3 is it masked, and the draw is used up. -/
theorem test_rnd : ∃ t, step (State.reset.withFetchWord 16 0xC30F) = .next t ∧ t.getV 3 = Config.rng 0 &&& 0x0F ∧
    t.draws = 1 := ⟨_, rfl, rfl, rfl⟩

/-- G2 and G5: the wrap in a row and from the last row to the first. -/
theorem test_drw_wraps :
    after ((start [(0, 0x3F)] [(0x300, 0xFF)]).setI 0x300) 0xD011 (fun t =>
      t.byteAt 0x107 == 0x01 && t.byteAt 0x100 == 0xFE && t.getV 0xF == 0) = true ∧
    after ((start [(1, 0x1F)] [(0x300, 0x80), (0x301, 0x80)]).setI 0x300) 0xD012 (fun t =>
      t.byteAt 0x1F8 == 0x80 && t.byteAt 0x100 == 0x80 && t.getV 0xF == 0) = true := by decide

/-- G6 and G9: a collision, and the sentinel drawn. -/
theorem test_drw_collides_and_sentinel :
    after ((start [(0, 0x48)] [(0x300, 0xFF), (0x101, 0xFF)]).setI 0x300) 0xD011 (fun t =>
      t.byteAt 0x101 == 0 && t.getV 0xF == 1) = true ∧
    after State.reset 0xD011 (fun t => t.byteAt 0x100 == 0xFF && t.getV 0xF == 0 &&
      t.log == [⟨.read, .bits8, 0x0000⟩]) = true := by decide

/-! ## Input and timers -/

/-- K1, K2 and K3. -/
theorem test_skp : after ((start [(2, 5)] []).setHeld 0x0020) 0xE29E (fun t => t.pc == 0x204) = true ∧
    after (start [(2, 5)] []) 0xE29E (fun t => t.pc == 0x202) = true ∧
    after ((start [(2, 0x10)] []).setHeld 0xFFFF) 0xE29E (fun t => t.pc == 0x202) = true := by decide

/-- K2 and K3. -/
theorem test_sknp : after (start [(2, 5)] []) 0xE2A1 (fun t => t.pc == 0x204) = true ∧
    after ((start [(2, 0x10)] []).setHeld 0xFFFF) 0xE2A1 (fun t => t.pc == 0x204) = true := by decide

/-- K4 and K7. -/
theorem test_ldKey : after (State.reset.setHeld 0x0010) 0xF30A (fun t => t.pc == 0x202 &&
    t.run == .pausedOnKeyWait 3 && t.isPaused && t.isAwaitingKey) = true := by decide

/-- T2. -/
theorem test_ldFromDt : after (State.reset.setDt 0x3C) 0xF107 (fun t => t.getV 1 == 0x3C) = true := by decide

/-- T1 and T8. -/
theorem test_ldToDt : after ((start [(1, 0x3C)] []).setAcc 980) 0xF115 (fun t =>
    t.dt == 0x3C && t.acc == 980) = true := by decide

/-- T3. -/
theorem test_ldToSt : after (start [(1, 8)] []) 0xF118 (fun t => t.st == 8) = true := by decide

/-! ## BCD and bulk transfer -/

/-- B1. -/
theorem test_ldBcd : after ((start [(1, 0xFF)] []).setI 0x300) 0xF133 (fun t =>
    bytesAt t 0x300 [2, 5, 5] && t.i == 0x300) = true := by decide

/-- B3: the step goes on after refused writes. -/
theorem test_ldBcd_refused : after ((start [(1, 0x7B)] []).setI 0xFFE) 0xF133 (fun t =>
    t.byteAt 0xFFE == 1 && t.log == [⟨.write, .bits8, 0x0FFF⟩, ⟨.write, .bits8, 0x1000⟩] && t.run == .running) = true := by
  decide

/-- B4 and B5. -/
theorem test_ldStore :
    after ((start [(0, 1), (1, 2), (2, 3)] []).setI 0x300) 0xF255 (fun t =>
      bytesAt t 0x300 [1, 2, 3] && t.i == 0x303) = true ∧
    after { (start [(0, 1), (1, 2), (2, 3)] []).setI 0x300 with quirkLdstNoInc := true } 0xF255 (fun t =>
      bytesAt t 0x300 [1, 2, 3] && t.i == 0x300) = true := by decide

/-- B9: the stack region is data. -/
theorem test_ldStore_stack : after ((start [(0, 3)] []).setI 0x0E2) 0xF155 (fun t =>
    bytesAt t 0x0E2 [3, 0]) = true := by decide

/-- B7 in part: VF is an ordinary register, and I moves past all sixteen. -/
theorem test_ldLoad : after ((start [] [(0x300, 7), (0x30F, 0x0F)]).setI 0x300) 0xFF65 (fun t =>
    t.getV 0 == 7 && t.getV 0xF == 0x0F && t.i == 0x310) = true := by decide

/-- B8. -/
theorem test_ldLoad_refused : after ((start [] [(0xFFE, 0x11)]).setI 0xFFE) 0xF165 (fun t =>
    t.getV 0 == 0x11 && t.getV 1 == 0xFF && t.log == [⟨.read, .bits8, 0x0FFF⟩] && t.i == 0x1000) = true := by decide

/-! ## The access controller, transactions and the cycle -/

/-- M1–M7 in part: reads at the edges of the regions. -/
theorem test_reads : (read8 0x08F State.reset).1 = 0xFF ∧ (read8 0x090 State.reset).1 = 0xF0 ∧
    (read16 0x0DF State.reset).1 = 0xFFFF ∧ (read16 0xFFE State.reset).2.log = [⟨.read, .bits16, 0x0FFE⟩] ∧
    (read16 0x0FE (start [] [(0xFE, 2), (0xFF, 4)])).1 = 0x0204 := by decide

/-- M8–M11: writes. -/
theorem test_writes : (write16 0x0FF 0xABCD State.reset).1 = false ∧ (write16 0x0FF 0xABCD State.reset).2.mem = [] ∧
    bytesAt (write16 0x301 0xABCD State.reset).2 0x301 [0xAB, 0xCD] = true ∧
    (write8 0x095 0x00 State.reset).2.byteAt 0x095 = 0x00 ∧ (write8 0x0000 0x55 State.reset).1 = false := by decide

/-- S5: the top of the display is the last byte of the snapshot. -/
theorem test_snapshot_last : ((write8 0x1FF 0xAA State.reset).2.snapshotDisplay).getLast? = some 0xAA := by decide

/-- E17: with nothing loaded the first step halts. -/
theorem test_nothing_loaded : holdsNext (step State.reset) (fun t =>
    t.run == .halted ⟨.unknownOpcode, 0x200, 0x0000⟩ && t.pc == 0x202 && t.signal == .halt) = true := by decide

/-- The refused fetch of CF8's second step. -/
theorem test_refused_fetch : holdsNext (step (State.reset.setPc 0xFFF)) (fun t => t.log == [⟨.read, .bits16, 0x0FFF⟩] &&
    t.run == .halted ⟨.unknownOpcode, 0x0FFF, 0xFFFF⟩ && t.pc == 0x1001) = true := by decide

/-- T5, T7. -/
theorem test_tick : (tick 1 (tick 16 (State.reset.setDt 10))).dt = 9 ∧
    (tick 1 (tick 16 (State.reset.setDt 10))).acc = 20 ∧
    (tick 100 ((State.reset.setDt 1).setSt 200)).dt = 0 ∧ (tick 100 ((State.reset.setDt 1).setSt 200)).st = 194 := by
  decide

/-- K5, K6, K10 and K12. -/
theorem test_key_events :
    holdsNext (deliverKeyEvent 7 false (State.reset.setRun (.pausedOnKeyWait 3))) (fun t =>
      t.run == .pausedOnKeyWait 3 && t.held == 0) = true ∧
    holdsNext (deliverKeyEvent 7 true (State.reset.setRun (.pausedOnKeyWait 3))) (fun t =>
      t.run == .running && t.getV 3 == 7 && t.held == 0x0080) = true ∧
    holdsNext (deliverKeyEvent 2 false (State.reset.setRun .pausedOnSelfJump)) (fun t => t.run == .running) = true ∧
    holdsNext (deliverKeyEvent 1 true (State.reset.setRun (.halted ⟨.unknownOpcode, 0, 0⟩))) (fun t =>
      t.held == 0x0002 && t.isHalted) = true := by decide

set_option maxRecDepth 8192 in
/-- L4 in part, and L6. -/
theorem test_reset :
    let s := start [(3, 0x44)] [(0x090, 0), (0x1FF, 1), (0x300, 9)]
    let t := resetBlock ((((s.setSp 0xE4).setDt 9).setAcc 500).setRun (.pausedOnKeyWait 3))
    t.getV 3 = 0x44 ∧ t.sp = 0xE0 ∧ t.dt = 0 ∧ t.acc = 0 ∧ t.byteAt 0x090 = 0xF0 ∧ t.byteAt 0x1FF = 0 ∧
    t.byteAt 0x300 = 9 ∧ t.run = .running := by decide

/-! ## Witnesses: the statements' hypotheses can be met -/

theorem test_witness_DecodedWordIsEncoded : decode 0x0FEE = some (.ret 0xF) ∧ encode (.ret 0xF) = 0x0FEE := by decide

/-- The clauses of the list, at the ends of their ranges. -/
theorem test_witness_UnknownSpaceIsTheListedWords :
    decode 0x0FFF = none ∧ decode 0x500F = none ∧ decode 0x9FF1 = none ∧ decode 0x8FFF = none ∧ decode 0xEFFF = none ∧
    decode 0xF000 = none ∧ (decode 0xFF65).isSome = true ∧ (decode 0x1000).isSome = true := by decide

theorem test_witness_RegionTagTable : tag 0x08F = .none ∧ tag 0x090 = .font ∧ tag 0x0DF = .font ∧ tag 0x0E0 = .stack ∧
    tag 0x0FF = .stack ∧ tag 0x100 = .display ∧ tag 0x1FF = .display ∧ tag 0x200 = .program ∧ tag 0xFFE = .program ∧
    tag 0xFFF = .none := by decide

theorem test_witness_CheckedByteWrite : memWf State.reset.mem = true ∧ tag (0x08F : Word).toNat = .none ∧
    tag (0x090 : Word).toNat ≠ .none ∧ tag (0xFFE : Word).toNat ≠ .none := by decide

theorem test_witness_CheckedWordWrite : memWf State.reset.mem = true ∧
    tag ((0x0FF : Word).toNat + 1) ≠ tag (0x0FF : Word).toNat ∧
    tag (0xFFD : Word).toNat ≠ .none ∧ tag ((0xFFD : Word).toNat + 1) = tag (0xFFD : Word).toNat := by decide

theorem test_witness_WordReadIsTwoByteReads : permitted16 0x090 = true ∧ permitted16 0xFFD = true := by decide

theorem test_witness_StepRunsDecodedInstruction :
    let s := State.reset.withFetchWord 16 0x6A05
    s.run = .running ∧ permitted16 s.pc = true ∧
    decode (s.byteAt s.pc.toNat ++ s.byteAt (s.pc.toNat + 1)) = some (.ldImm 0xA 0x05) := by decide

/-- Both clauses, the first also at the last address of a region. -/
theorem test_witness_UnknownWordHalts :
    State.reset.run = .running ∧ permitted16 (State.reset.setPc 0xFFE).pc = false ∧
    permitted16 (State.reset.setPc 0x1FF).pc = false ∧ permitted16 State.reset.pc = true ∧
    decode (State.reset.byteAt State.reset.pc.toNat ++ State.reset.byteAt (State.reset.pc.toNat + 1)) = none := by decide

theorem test_witness_PausedAndHaltedStepsDoNothing :
    (State.reset.setRun .pausedOnSelfJump).run ≠ .running ∧ (State.reset.setRun (.pausedOnKeyWait 0xF)).run ≠ .running ∧
    (State.reset.setRun (.halted ⟨.stackOverflow, 0x200, 0x2200⟩)).run ≠ .running := by decide

/-- An unknown word, a refused fetch and a stack fault. -/
theorem test_witness_HaltIsPrecise :
    State.reset.run = .running ∧
    (∃ t r, step State.reset = .next t ∧ t.run = .halted r ∧ r.kind = .unknownOpcode) ∧
    (∃ t r, step (State.reset.setPc 0x1000) = .next t ∧ t.run = .halted r ∧ t.log ≠ []) ∧
    (∃ t r, step (State.reset.withFetchWord 16 0x00EE) = .next t ∧ t.run = .halted r ∧ r.kind = .stackUnderrun) :=
  ⟨rfl, ⟨_, _, rfl, rfl, rfl⟩, ⟨_, _, rfl, rfl, by decide⟩, ⟨_, _, rfl, rfl, rfl⟩⟩

theorem test_witness_ClsClearsTheDisplay : memWf (start [] [(0x100, 0xFF), (0x1FF, 1)]).mem = true := by decide

/-- Both branches, the second at both ends of the stack. -/
theorem test_witness_RetPopsOrUnderruns :
    spOk (0xE0 : Byte) = true ∧ spOk (0xE2 : Byte) = true ∧ (0xE2 : Byte) ≠ 0xE0 ∧ spOk (0xFE : Byte) = true := by decide

/-- Both branches: the jump's own address and its neighbour. -/
theorem test_witness_JpJumpsAndDetectsSelfJump :
    (State.reset.setPc 0x202).pc = (0x200 : Word) + 2 ∧ (0x200 : Word).toNat = (0x200 : Addr12).toNat ∧
    (0x200 : Word).toNat ≠ (0x202 : Addr12).toNat := by decide

theorem test_witness_CallPushesOrOverflows :
    memWf State.reset.mem = true ∧ spOk State.reset.sp = true ∧ spOk (State.reset.setSp 0xFC).sp = true ∧
    spOk (State.reset.setSp 0xFE).sp = true ∧ (State.reset.setSp 0xFC).sp ≠ 0xFE := by decide

/-- The state after CALL is itself one that leaves SP and the slot alone. -/
theorem test_witness_CallThenRetReturns :
    memWf State.reset.mem = true ∧ spOk State.reset.sp = true ∧ State.reset.sp ≠ 0xFE ∧
    ∃ t m, exec (.call 0x300) State.reset = .next t ∧ m = t.setV 0 1 ∧ m.sp = t.sp ∧
      m.byteAt t.sp.toNat = t.byteAt t.sp.toNat ∧ m.byteAt (t.sp.toNat + 1) = t.byteAt (t.sp.toNat + 1) :=
  ⟨rfl, rfl, by decide, _, _, rfl, rfl, rfl, rfl, rfl⟩

/-- Both clauses. -/
theorem test_witness_StackFaultsReportTheFetchedWord :
    let s := (State.reset.setSp 0xFE).withFetchWord 16 0x2FFF
    let u := State.reset.withFetchWord 16 0x0FEE
    (s.run = .running ∧ permitted16 s.pc = true ∧ s.sp = 0xFE ∧
      (s.byteAt s.pc.toNat ++ s.byteAt (s.pc.toNat + 1) : Word).toNat / 4096 = 2) ∧
    (u.run = .running ∧ permitted16 u.pc = true ∧ u.sp = 0xE0 ∧
      (u.byteAt u.pc.toNat ++ u.byteAt (u.pc.toNat + 1) : Word).toNat / 4096 = 0 ∧
      (u.byteAt u.pc.toNat ++ u.byteAt (u.pc.toNat + 1) : Word).toNat % 256 = 0xEE) := by decide

/-- The empty stack, one word on it, and the full stack. -/
theorem test_witness_StackEngineRefinesAList :
    memWf State.reset.mem = true ∧ spOk State.reset.sp = true ∧ stackList State.reset = [] ∧
    (stackList ((start [] [(0xE2, 0x02), (0xE3, 0x06)]).setSp 0xE2)) = [0x0206] ∧
    (stackList (State.reset.setSp 0xFE)).length = 15 ∧ push 0x0206 (State.reset.setSp 0xFE) = none ∧
    pop State.reset = none := by decide

theorem test_witness_AddAndSubtractWithFlag : (0x0 : Nibble) ≠ 0xF ∧ (0xE : Nibble) ≠ 0xF := by decide

theorem test_witness_ShiftsByOneWithFlag : (0x1 : Nibble) ≠ 0xF ∧ State.reset.quirkShiftSingle = false ∧
    ({ State.reset with quirkShiftSingle := true } : State).quirkShiftSingle = true := by decide

theorem test_witness_DrwDrawsRowByRow : memWf ((start [(0, 0x3F)] [(0x300, 0xFF)]).setI 0x300).mem = true := by decide

/-- The sprite outside the display at its boundaries, and the two values of the collision flag. -/
theorem test_witness_DrwInvertsTheSpritePixels :
    memWf State.reset.mem = true ∧ SpriteOffDisplay 0x00F1 15 ∧ SpriteOffDisplay 0x0200 15 ∧ SpriteOffDisplay 0x0300 0 ∧
    holdsNext (exec (.drw 0 1 1) ((start [] [(0x300, 0xFF), (0x100, 0x80)]).setI 0x300)) (fun t =>
      t.getV 0xF == 1 && !(t.pixel 0 0) && t.pixel 1 0) = true ∧
    holdsNext (exec (.drw 0 1 1) ((start [] [(0x300, 0x7F), (0x100, 0x80)]).setI 0x300)) (fun t =>
      t.getV 0xF == 0 && t.pixel 0 0) = true := by
  refine ⟨rfl, ?_, ?_, ?_, by decide, by decide⟩ <;> simp only [SpriteOffDisplay] <;> decide

/-- A first draw, with both its registers unchanged, that turns pixels on; and one that turns none on. -/
theorem test_witness_DoubleDrawRestoresTheDisplay :
    (∃ s t, memWf s.mem = true ∧ SpriteOffDisplay s.i (1 : Nibble).toNat ∧ exec (.drw 0 1 1) s = .next t ∧
      t.getV 0 = s.getV 0 ∧ t.getV 1 = s.getV 1 ∧ s.pixel 0 0 = false ∧ t.pixel 0 0 = true) ∧
    (∃ s t, memWf s.mem = true ∧ SpriteOffDisplay s.i (0 : Nibble).toNat ∧ exec (.drw 0 1 0) s = .next t ∧
      t.getV 0 = s.getV 0 ∧ t.getV 1 = s.getV 1 ∧ t.mem = s.mem) := by
  refine ⟨⟨(start [] [(0x300, 0xFF)]).setI 0x300, _, by decide, ?_, rfl, by decide⟩,
    ⟨State.reset, _, rfl, ?_, rfl, by decide⟩⟩ <;> simp only [SpriteOffDisplay] <;> decide

theorem test_witness_KeySkips :
    ((State.reset.getV 0).toNat ≤ 15 ∧ (State.reset.setHeld 0x0001).held.getLsbD (State.reset.getV 0).toNat = true) ∧
    ¬ ((start [(2, 0x10)] []).getV 2).toNat ≤ 15 ∧ State.reset.held.getLsbD (State.reset.getV 0).toNat = false := by
  decide

theorem test_witness_KeyWaitIsResolvedByAPress : (0 : Nat) < 16 ∧ (15 : Nat) < 16 ∧
    (exec (.ldKey 3) State.reset = .next (State.reset.setRun (.pausedOnKeyWait 3))) := ⟨by decide, by decide, rfl⟩

/-- Permitted and refused bytes of one instruction. -/
theorem test_witness_BcdStoresThreeDigits : memWf (State.reset.setI 0xFFE).mem = true ∧
    permitted8 ((State.reset.setI 0xFFE).i + BitVec.ofNat 16 0) = true ∧
    permitted8 ((State.reset.setI 0xFFE).i + BitVec.ofNat 16 1) = false := by decide

theorem test_witness_BulkStore : memWf (State.reset.setI 0xFFE).mem = true ∧ (0x0 : Nibble) ≤ 0xF ∧
    permitted8 ((State.reset.setI 0xFFE).i + (0x0 : Nibble).zeroExtend 16) = true ∧
    permitted8 ((State.reset.setI 0xFFE).i + (0x1 : Nibble).zeroExtend 16) = false := by decide

theorem test_witness_BulkLoad : (0x0 : Nibble) ≤ 0x0 ∧ (0x0 : Nibble) < 0x1 ∧ (0xF : Nibble) ≤ 0xF := by decide

/-- Hypotheses met, with a CALL that pushes, one that overflows, and an instruction of another shape. -/
theorem test_witness_EveryInstructionKeepsToItsFootprint :
    memWf State.reset.mem = true ∧ spOk State.reset.sp = true ∧ spOk (State.reset.setSp 0xFE).sp = true ∧
    (∃ t, exec (.call 0x300) State.reset = .next t ∧ t.pc = 0x300) ∧
    (∃ t, exec (.call 0x300) (State.reset.setSp 0xFE) = .next t ∧ t.isHalted = true) ∧
    (∃ t, exec (.ldLoad 0xF) State.reset = .next t ∧ t.i = 0x10) :=
  ⟨rfl, rfl, by decide, ⟨_, rfl, rfl⟩, ⟨_, rfl, rfl⟩, ⟨_, rfl, by decide⟩⟩

theorem test_witness_SoundAccumulatorAndLogAreUnread :
    (∃ t, exec (.ldToSt 0) (start [(0, 7)] []) = .next t ∧ t.st = 7) ∧
    (∃ t, exec (.ldLoad 0) (State.reset.setI 0x1000) = .next t ∧ t.log = [⟨.read, .bits8, 0x1000⟩]) :=
  ⟨⟨_, rfl, rfl⟩, ⟨_, rfl, rfl⟩⟩

theorem test_witness_OnlyRandomReadsTheDraws :
    (∀ x kk, Instr.addI 0 ≠ .rnd x kk) ∧ ∃ t, exec (.addI 0) State.reset = .next t ∧ t.draws = 0 :=
  ⟨fun _ _ h => Instr.noConfusion h, _, rfl, rfl⟩

/-- Both branches at their boundary (L1 and L2), the first also on the empty image (L3). -/
theorem test_witness_LoadProgramCopiesTheImage : memWf State.reset.mem = true ∧
    ([] : List Byte).length ≤ 3583 ∧ (List.replicate 3583 (0 : Byte)).length ≤ 3583 ∧
    ¬ (List.replicate 3584 (0 : Byte)).length ≤ 3583 := by
  simp only [List.length_replicate]
  decide

theorem test_witness_ResetTransaction : memWf (start [] [(0x090, 0x00), (0x1FF, 0x01), (0x300, 9)]).mem = true := by decide

theorem test_witness_TimersChangeOnlyByLoadTickAndReset :
    (∃ s t, step s = .next t ∧ decode (read16 s.pc s).1 = some (.ldToSt 0) ∧ s.dt = 9 ∧ t.st = 7) ∧
    (∃ s t, step s = .next t ∧ decode (read16 s.pc s).1 = some (.ldToDt 0) ∧ s.st = 9 ∧ t.dt = 7) ∧
    (∃ t, deliverKeyEvent 15 true State.reset = .next t ∧ t.held = 0x8000) ∧
    (∃ t, loadProgram [0x12] State.reset = .next t ∧ t.byteAt 0x200 = 0x12) :=
  ⟨⟨((start [(0, 7)] []).setDt 9).withFetchWord 16 0xF018, _, rfl, by decide, rfl, rfl⟩,
    ⟨((start [(0, 7)] []).setSt 9).withFetchWord 16 0xF015, _, rfl, by decide, rfl, rfl⟩,
    ⟨_, rfl, by decide⟩, ⟨_, rfl, by decide⟩⟩

theorem test_witness_TicksNeverRaiseATimer : State.reset.dt = 0 ∧ State.reset.st = 0 := by decide

/-- Both branches at their boundary, and the run states of the first. -/
theorem test_witness_KeyEventTable : (0 : Nat) < 16 ∧ (15 : Nat) < 16 ∧ ¬ (16 : Nat) < 16 ∧
    (State.reset.setRun (.pausedOnKeyWait 0)).run = .pausedOnKeyWait 0 ∧
    deliverKeyEvent 16 true State.reset = .refused (.keyOutsideContract 16) := ⟨by decide, by decide, by decide, rfl, rfl⟩

theorem test_reset_meets_the_invariant : State.reset.Inv := ⟨rfl, rfl, by decide, by decide⟩

/-- A state off the reset state, with a step that calls, meets the hypotheses. -/
theorem test_witness_StepKeepsTheInvariant : ∃ s t, State.Inv s ∧ step s = .next t ∧ t.sp = 0xFE :=
  ⟨(State.reset.setSp 0xFC).withFetchWord 16 0x2300, _, ⟨by decide, by decide, by decide, by decide⟩, rfl, by decide⟩

/-- A schedule of every kind of transaction is accepted. -/
theorem test_witness_EveryScheduleKeepsTheInvariant : State.reset.Inv ∧
    ∃ t, transactAll [.load [0x60, 0x07, 0x12, 0x02], .step, .tick 17, .keyEvent 3 true, .step, .reset] State.reset =
      .next t ∧ t.getV 0 = 7 := ⟨test_reset_meets_the_invariant, _, rfl, by decide⟩

/-- A schedule of every kind of transaction, from a state with the quirk bits set. -/
theorem test_witness_ConstructionParametersNeverChange :
    ∃ t, transactAll [.load [0x60, 0x07], .step, .tick 1, .keyEvent 0 true, .step, .reset]
      { State.reset with quirkShiftSingle := true, quirkLdstNoInc := true } = .next t ∧ t.getV 0 = 7 ∧ t.acc = 0 :=
  ⟨_, rfl, by decide, by decide⟩

/-- A halted run under transactions other than reset. -/
theorem test_witness_HaltedUntilReset :
    let s := State.reset.setRun (.halted ⟨.unknownOpcode, 0x200, 0x0000⟩)
    s.run = .halted ⟨.unknownOpcode, 0x200, 0x0000⟩ ∧
    Transaction.reset ∉ [.step, .tick 17, .keyEvent 1 true, .load [0x12]] ∧
    ∃ t, transactAll [.step, .tick 17, .keyEvent 1 true, .load [0x12]] s = .next t ∧ t.byteAt 0x200 = 0x12 :=
  ⟨rfl, by decide, _, rfl, by decide⟩

/-- A step that adds an event, and a transaction that is no step. -/
theorem test_witness_DiagnosticOutputOnlyGrows :
    (∃ t, transact .step (State.reset.setPc 0xFFF) = .next t ∧ t.log ≠ []) ∧ Transaction.tick 1 ≠ .step ∧
    (∃ t, transact (.tick 1) State.reset = .next t ∧ t.acc = 60) := ⟨⟨_, rfl, by decide⟩, by decide, ⟨_, rfl, rfl⟩⟩

/-- The first clause, by a CALL. -/
theorem test_witness_DisplayChangesOnlyByDrawClearAndStore :
    memWf State.reset.mem = true ∧ spOk State.reset.sp = true ∧
    (∃ t, exec (.call 0x300) State.reset = .next t ∧ t.sp = 0xE2) ∧ (∀ g, Instr.call 0x300 ≠ .cls g) ∧
    (∀ x y n, Instr.call 0x300 ≠ .drw x y n) ∧ (∀ x, Instr.call 0x300 ≠ .ldBcd x) ∧
    (∀ x, Instr.call 0x300 ≠ .ldStore x) :=
  ⟨rfl, rfl, ⟨_, rfl, rfl⟩, fun _ h => Instr.noConfusion h, fun _ _ _ h => Instr.noConfusion h,
    fun _ h => Instr.noConfusion h, fun _ h => Instr.noConfusion h⟩

/-- The second clause: transactions that are no step, a step that fetches another instruction, and one in a pause. -/
theorem test_witness_DisplayChangesOnlyByDrawClearAndStore_transactions :
    (∃ t, transact (.tick 1) State.reset = .next t ∧ Transaction.tick 1 ≠ .reset ∧ Transaction.tick 1 ≠ .step) ∧
    (∃ t, transact (.load [0x12]) State.reset = .next t ∧ Transaction.load [0x12] ≠ .reset ∧ t.byteAt 0x200 = 0x12) ∧
    (∃ t, transact .step (State.reset.withFetchWord 16 0x2300) = .next t ∧
      decode (read16 0x200 (State.reset.withFetchWord 16 0x2300)).1 = some (.call 0x300) ∧ t.pc = 0x300) ∧
    (∃ t, transact .step (State.reset.setRun .pausedOnSelfJump) = .next t ∧ t.run ≠ .running) :=
  ⟨⟨_, rfl, by decide, by decide⟩, ⟨_, rfl, by decide, by decide⟩, ⟨_, rfl, by decide, by decide⟩, ⟨_, rfl, by decide⟩⟩

end Sys2Proof.Tests
end

/-! PROOF. The memory access controller (20_memory.md): the region of every address, the permission tests in terms of it,
what a checked access does where it is permitted and where it is refused, and the statements of this family. -/

namespace Sys2Proof.Machine

/-! ### The region of every address -/

/-- The one pass through R51's table: every address lies in one of its ranges, and that range gives its tag. -/
theorem tag_cases (a : Nat) :
    (tag a = .font ∧ 0x090 ≤ a ∧ a ≤ 0x0DF) ∨ (tag a = .stack ∧ 0x0E0 ≤ a ∧ a ≤ 0x0FF) ∨
    (tag a = .display ∧ 0x100 ≤ a ∧ a ≤ 0x1FF) ∨ (tag a = .program ∧ 0x200 ≤ a ∧ a ≤ 0xFFE) ∨
    (tag a = .none ∧ (a < 0x090 ∨ 0xFFE < a)) := by
  simp only [tag]
  split_ifs <;> simp <;> omega

/-- Settles O6: the ranges of R51 exclude one another, so the tag of an address names the range it lies in. -/
theorem regionTagTable : Obligations.RegionTagTable := by
  intro a
  obtain ⟨ht, _⟩ | ⟨ht, _⟩ | ⟨ht, _⟩ | ⟨ht, _⟩ | ⟨ht, _⟩ := tag_cases a <;> simp [ht] <;> omega

/-! ### The permission tests, by region -/

theorem permitted8_iff_tag (a : Word) : permitted8 a = true ↔ tag a.toNat ≠ .none := by
  simp [permitted8]

theorem permitted16_iff_tag (a : Word) :
    permitted16 a = true ↔ tag a.toNat ≠ .none ∧ tag (a.toNat + 1) = tag a.toNat := by
  simp [permitted16]

theorem not_permitted8_iff_tag (a : Word) : ¬ permitted8 a = true ↔ tag a.toNat = .none := by
  rw [permitted8_iff_tag, not_not]

theorem not_permitted16_iff_tag (a : Word) :
    ¬ permitted16 a = true ↔ tag a.toNat = .none ∨ tag (a.toNat + 1) ≠ tag a.toNat := by
  rw [permitted16_iff_tag, not_and_or, not_not]

/-- A 2-byte access is refused, and its 1-byte access is not, exactly at the last address of a region (R54). -/
theorem permitted16_iff_permitted8 (a : Word) :
    permitted16 a = true ↔ permitted8 a = true ∧ a ≠ 0x0DF ∧ a ≠ 0x0FF ∧ a ≠ 0x1FF ∧ a ≠ 0xFFE := by
  rw [permitted16_iff, permitted8_iff]
  bv_omega

/-- Settles O10: both bytes are in one region exactly where the address is in a region and does not end it. -/
theorem twoByteSpansStayInOneRegion : Obligations.TwoByteSpansStayInOneRegion :=
  ⟨permitted16_iff_permitted8, permitted16_iff_tag, by decide⟩

/-! ### The checked accesses, permitted and refused -/

theorem read8_of_permitted {a : Word} (h : permitted8 a = true) (s : State) : read8 a s = (s.byteAt a.toNat, s) :=
  if_pos h

theorem read8_of_refused {a : Word} (h : ¬ permitted8 a = true) (s : State) :
    read8 a s = (0xFF, s.emit ⟨.read, .bits8, a⟩) := if_neg h

theorem read16_of_permitted {a : Word} (h : permitted16 a = true) (s : State) :
    read16 a s = (s.byteAt a.toNat ++ s.byteAt (a.toNat + 1), s) := if_pos h

theorem read16_of_refused {a : Word} (h : ¬ permitted16 a = true) (s : State) :
    read16 a s = (0xFFFF, s.emit ⟨.read, .bits16, a⟩) := if_neg h

theorem write8_of_permitted {a : Word} (h : permitted8 a = true) (v : Byte) (s : State) :
    write8 a v s = (true, s.setByte a.toNat v) := if_pos h

theorem write8_of_refused {a : Word} (h : ¬ permitted8 a = true) (v : Byte) (s : State) :
    write8 a v s = (false, s.emit ⟨.write, .bits8, a⟩) := if_neg h

/-- Settles O7: each read is its permitted or its refused case, and the region decides which. -/
theorem checkedReads : Obligations.CheckedReads := by
  intro s a
  constructor
  · split
    · next hn => exact read8_of_refused ((not_permitted8_iff_tag a).2 hn) s
    · next hr => exact read8_of_permitted ((permitted8_iff_tag a).2 hr) s
  · split
    · next hn => exact read16_of_refused ((not_permitted16_iff_tag a).2 hn) s
    · next hr => exact read16_of_permitted (not_not.1 (mt (not_permitted16_iff_tag a).1 hr)) s

/-- Settles O8: a permitted write is `setByte`, whose value and frame are laws of memory; a refused one is `emit`. -/
theorem checkedByteWrite : Obligations.CheckedByteWrite := by
  intro s a v hwf
  split
  · next hn => exact write8_of_refused ((not_permitted8_iff_tag a).2 hn) v s
  · next hr =>
    have hvalue : (s.setByte a.toNat v).byteAt a.toNat = v := by simp [State.byteAt_setByte hwf]
    exact ⟨_, write8_of_permitted ((permitted8_iff_tag a).2 hr) v s, hvalue, changesOnly_setByte hwf _ _⟩

end Sys2Proof.Machine

/-! PROOF. Control flow (40_control_flow.md): what CLS, RET and the conditional skips answer, one equation per case, and
the statements of this family. -/

namespace Sys2Proof.Machine

/-! ### CLS (R104) -/

theorem exec_cls (ign : Nibble) (s : State) : exec (.cls ign) s = .next (clearDisplay s) := rfl

theorem byteAt_clearDisplay {s : State} (h : memWf s.mem = true) (a : Nat) :
    (clearDisplay s).byteAt a = if 0x100 ≤ a ∧ a ≤ 0x1FF then 0x00 else s.byteAt a := by
  rw [clearDisplay, State.byteAt_setBytes h, List.length_replicate]
  by_cases ha : 0x100 ≤ a ∧ a ≤ 0x1FF
  · have hk : a - displayBase < displayBytes := by simp only [displayBase, displayBytes]; omega
    rw [if_pos (by simp only [displayBase, displayBytes]; omega), if_pos ha, List.getD_replicate _ hk]
  · rw [if_neg (by simp only [displayBase, displayBytes]; omega), if_neg ha]

theorem byteAt_clearDisplay_of_display {s : State} (h : memWf s.mem = true) {a : Nat} (hlo : 0x100 ≤ a)
    (hhi : a ≤ 0x1FF) : (clearDisplay s).byteAt a = 0x00 := by
  rw [byteAt_clearDisplay h, if_pos ⟨hlo, hhi⟩]

theorem snapshotDisplay_clearDisplay {s : State} (h : memWf s.mem = true) :
    (clearDisplay s).snapshotDisplay = List.replicate 256 0x00 := by
  rw [State.snapshotDisplay, memReadBytes, List.eq_replicate_iff, List.length_map, List.length_range]
  refine ⟨rfl, fun b hb => ?_⟩
  obtain ⟨k, hk, rfl⟩ := List.mem_map.1 hb
  have hlt : k < 256 := List.mem_range.1 hk
  have hzero := byteAt_clearDisplay_of_display h (Nat.le_add_right 0x100 k) (by omega)
  exact hzero

theorem changesOnly_clearDisplay {s : State} (h : memWf s.mem = true) :
    ChangesOnly (bytesFrom displayBase displayBytes) s (clearDisplay s) := by
  rw [clearDisplay]
  simpa only [List.length_replicate] using changesOnly_setBytes h displayBase (List.replicate displayBytes 0)

/-- Settles O17: CLS is `clearDisplay`, a run of 256 zero bytes stored at 0x100; its value, its snapshot and its frame
are those of that store. -/
theorem clsClearsTheDisplay : Obligations.ClsClearsTheDisplay := by
  intro s ign hwf
  exact ⟨_, exec_cls ign s, fun _ => byteAt_clearDisplay_of_display hwf, snapshotDisplay_clearDisplay hwf,
    changesOnly_clearDisplay hwf⟩

/-! ### RET (R105) -/

theorem exec_ret_of_empty {s : State} (h : s.sp = 0xE0) (ign : Nibble) :
    exec (.ret ign) s = .next (raiseFatal .stackUnderrun (encode (.ret ign)) s) := by
  have hpop : pop s = none := if_pos h
  simp only [exec, execRet, hpop]

theorem exec_ret_of_nonempty {s : State} (hok : spOk s.sp = true) (h : s.sp ≠ 0xE0) (ign : Nibble) :
    exec (.ret ign) s = .next ((s.setSp (s.sp - 2)).setPc (slotWord s s.sp.toNat)) := by
  have hpop : pop s = some (slotWord s s.sp.toNat, s.setSp (s.sp - 2)) := (pop_eq hok).trans (if_neg h)
  simp only [exec, execRet, hpop]

/-- Settles O18: the empty stack raises StackUnderrun, which writes the run state alone; any other slot is popped, which
writes SP and then PC. -/
theorem retPopsOrUnderruns : Obligations.RetPopsOrUnderruns := by
  intro s ign hok
  split
  · next hempty => exact ⟨_, exec_ret_of_empty hempty ign, ⟨_, rfl, rfl⟩, changesOnly_raiseFatal s _ _⟩
  · next hslot =>
    have hframe : ChangesOnly [.pc, .sp] s ((s.setSp (s.sp - 2)).setPc (slotWord s s.sp.toNat)) :=
      ((changesOnly_setSp s _).mono (by simp)).trans ((changesOnly_setPc _ _).mono (by simp))
    exact ⟨_, exec_ret_of_nonempty hok hslot ign, rfl, rfl, hframe⟩

/-! ### Conditional skips (R109–R112) -/

theorem exec_seImm (x : Nibble) (kk : Byte) (s : State) :
    exec (.seImm x kk) s = .next (skipIf (s.getV x == kk) s) := rfl

theorem exec_sneImm (x : Nibble) (kk : Byte) (s : State) :
    exec (.sneImm x kk) s = .next (skipIf (s.getV x != kk) s) := rfl

theorem exec_seReg (x y : Nibble) (s : State) :
    exec (.seReg x y) s = .next (skipIf (s.getV x == s.getV y) s) := rfl

theorem exec_sneReg (x y : Nibble) (s : State) :
    exec (.sneReg x y) s = .next (skipIf (s.getV x != s.getV y) s) := rfl

theorem skipIf_pc (test : Bool) (s : State) : (skipIf test s).pc = if test then s.pc + 2 else s.pc := by
  cases test <;> rfl

/-- The same for a test that decides a proposition. -/
theorem skipIf_pc_of_iff {test : Bool} {p : Prop} [Decidable p] (h : test = true ↔ p) (s : State) :
    (skipIf test s).pc = if p then s.pc + 2 else s.pc := by
  simp only [skipIf_pc, h]

/-- Settles O24: each of the four is `skipIf` of its own comparison, and `skipIf` writes PC alone. -/
theorem conditionalSkips : Obligations.ConditionalSkips := by
  intro s x y kk
  refine ⟨⟨_, exec_seImm x kk s, ?_, changesOnly_skipIf s _⟩, ⟨_, exec_sneImm x kk s, ?_, changesOnly_skipIf s _⟩,
    ⟨_, exec_seReg x y s, ?_, changesOnly_skipIf s _⟩, ⟨_, exec_sneReg x y s, ?_, changesOnly_skipIf s _⟩⟩
  · exact skipIf_pc_of_iff beq_iff_eq s
  · exact skipIf_pc_of_iff bne_iff_ne s
  · exact skipIf_pc_of_iff beq_iff_eq s
  · exact skipIf_pc_of_iff bne_iff_ne s

end Sys2Proof.Machine

/-! PROOF. The register-immediate instructions (41_register_immediate.md), with the register copy of R130: what each
answers, the algebra of writing one register twice, and the statement of this family. -/

namespace Sys2Proof.Machine

/-! ### One equation per instruction (R120, R121, R130) -/

theorem exec_ldImm (x : Nibble) (kk : Byte) (s : State) : exec (.ldImm x kk) s = .next (s.setV x kk) := rfl

theorem exec_ldReg (x y : Nibble) (s : State) : exec (.ldReg x y) s = .next (s.setV x (s.getV y)) := rfl

theorem exec_addImm (x : Nibble) (kk : Byte) (s : State) :
    exec (.addImm x kk) s = .next (s.setV x (s.getV x + kk)) := rfl

/-! ### Writing one register twice, and writing back what it holds -/

theorem State.setV_setV_same (s : State) (x : Nibble) (a b : Byte) : (s.setV x a).setV x b = s.setV x b := by
  simp only [State.setV, Vector.set_set]

theorem State.setV_getV_same (s : State) (x : Nibble) : s.setV x (s.getV x) = s := by
  simp only [State.setV, State.getV, Vector.set_getElem_self]

/-! ### The closure law (R122) -/

/-- The second immediate of the law is the negative of the first, modulo 256. -/
theorem ofNat_complement_eq_neg (kk : Byte) : BitVec.ofNat 8 ((256 - kk.toNat) % 256) = -kk := by
  bv_omega

theorem exec_addImm_neg_undoes (s : State) (x : Nibble) (kk : Byte) :
    exec (.addImm x (-kk)) (s.setV x (s.getV x + kk)) = .next s := by
  have hback : s.getV x + kk + -kk = s.getV x := by rw [BitVec.add_neg_eq_sub, BitVec.add_sub_cancel]
  rw [exec_addImm, State.getV_setV_same, State.setV_setV_same, hback, State.setV_getV_same]

/-- Settles O26: each instruction is one write of V[x], with that write's value and frame; adding the complement writes
back the old value over the sum. -/
theorem loadsAndImmediateAdd : Obligations.LoadsAndImmediateAdd := by
  intro s x y kk
  refine ⟨⟨_, exec_ldImm x kk s, s.getV_setV_same x _, changesOnly_setV s x _⟩,
    ⟨_, exec_ldReg x y s, s.getV_setV_same x _, changesOnly_setV s x _⟩,
    ⟨_, exec_addImm x kk s, ?_, changesOnly_setV s x _, ?_⟩⟩
  · rw [State.getV_setV_same, BitVec.toNat_add]
  · rw [ofNat_complement_eq_neg]
    exact exec_addImm_neg_undoes s x kk

end Sys2Proof.Machine

/-! PROOF. The register-register instructions that write a flag (42_alu.md §2): what each answers, what the result and
the flag are as numbers, and the statements of this family. -/

namespace Sys2Proof.Machine

/-! ### One equation per instruction (R134–R138) -/

theorem exec_addReg (x y : Nibble) (s : State) :
    exec (.addReg x y) s = .next (setWithFlag x (s.getV x + s.getV y) (carryOf (s.getV x) (s.getV y)) s) := rfl

theorem exec_subReg (x y : Nibble) (s : State) :
    exec (.subReg x y) s = .next (setWithFlag x (s.getV x - s.getV y) (noBorrowOf (s.getV x) (s.getV y)) s) := rfl

theorem exec_subnReg (x y : Nibble) (s : State) :
    exec (.subnReg x y) s = .next (setWithFlag x (s.getV y - s.getV x) (noBorrowOf (s.getV y) (s.getV x)) s) := rfl

theorem exec_shrReg (x y : Nibble) (s : State) :
    exec (.shrReg x y) s =
      .next (setWithFlag x (shiftOperand x y s >>> 1) (shiftedOutRight (shiftOperand x y s)) s) := rfl

theorem exec_shlReg (x y : Nibble) (s : State) :
    exec (.shlReg x y) s =
      .next (setWithFlag x (shiftOperand x y s <<< 1) (shiftedOutLeft (shiftOperand x y s)) s) := rfl

/-! ### The result and then the flag (R129) -/

theorem getV_setWithFlag_of_ne {x : Nibble} (h : x ≠ regF) (b : Byte) (f : Bool) (s : State) :
    (setWithFlag x b f s).getV x = b := by
  rw [setWithFlag, State.getV_setV_ne _ _ h, State.getV_setV_same]

/-- The flag is written last, so this holds for `x = regF` too. -/
theorem getV_setWithFlag_regF (x : Nibble) (b : Byte) (f : Bool) (s : State) :
    (setWithFlag x b f s).getV regF = flagByte f :=
  State.getV_setV_same _ _ _

/-! ### Results and flags as numbers -/

theorem flagByte_carryOf (a b : Byte) : flagByte (carryOf a b) = if a.toNat + b.toNat > 0xFF then 1 else 0 := by
  simp only [flagByte, carryOf, decide_eq_true_eq]

theorem flagByte_noBorrowOf (a b : Byte) : flagByte (noBorrowOf a b) = if a.toNat ≥ b.toNat then 1 else 0 := by
  simp only [flagByte, noBorrowOf, decide_eq_true_eq]

theorem toNat_sub_byte (a b : Byte) : (a - b).toNat = (a.toNat + 256 - b.toNat) % 256 := by
  bv_omega

theorem toNat_shiftOperand (x y : Nibble) (s : State) :
    (shiftOperand x y s).toNat = if s.quirkShiftSingle then (s.getV x).toNat else (s.getV y).toNat :=
  apply_ite BitVec.toNat _ _ _

theorem toNat_shiftRight_one (a : Byte) : (a >>> 1).toNat = a.toNat / 2 := by
  rw [BitVec.toNat_ushiftRight, Nat.shiftRight_one]

theorem toNat_shiftLeft_one (a : Byte) : (a <<< 1).toNat = 2 * a.toNat % 256 := by
  rw [BitVec.toNat_shiftLeft, Nat.shiftLeft_eq, pow_one, Nat.mul_comm]

theorem toNat_flagByte (f : Bool) : (flagByte f).toNat = f.toNat := by
  cases f <;> rfl

theorem toNat_flagByte_getLsbD (a : Byte) (k : Nat) : (flagByte (a.getLsbD k)).toNat = a.toNat / 2 ^ k % 2 := by
  rw [toNat_flagByte, BitVec.getLsbD, Nat.toNat_testBit]

theorem toNat_flagByte_shiftedOutRight (a : Byte) : (flagByte (shiftedOutRight a)).toNat = a.toNat % 2 := by
  rw [shiftedOutRight, toNat_flagByte_getLsbD, pow_zero, Nat.div_one]

/-- Bit 7 is the quotient by 128 itself, because a byte is below 256. -/
theorem toNat_flagByte_shiftedOutLeft (a : Byte) : (flagByte (shiftedOutLeft a)).toNat = a.toNat / 128 := by
  have hlt : a.toNat / 128 < 2 := by have := a.isLt; omega
  rw [shiftedOutLeft, toNat_flagByte_getLsbD]
  exact Nat.mod_eq_of_lt hlt

/-! ### The statements -/

/-- Settles O28: each instruction is one `setWithFlag`, whose result and flag are taken from the operands before it, and
whose frame is V[x] and VF. -/
theorem addAndSubtractWithFlag : Obligations.AddAndSubtractWithFlag := by
  intro s x y
  refine ⟨⟨_, exec_addReg x y s, fun hx => ?_, ?_, changesOnly_setWithFlag s x _ _⟩,
    ⟨_, exec_subReg x y s, fun hx => ?_, ?_, changesOnly_setWithFlag s x _ _⟩,
    ⟨_, exec_subnReg x y s, fun hx => ?_, ?_, changesOnly_setWithFlag s x _ _⟩⟩
  · rw [getV_setWithFlag_of_ne hx, BitVec.toNat_add]
  · rw [getV_setWithFlag_regF, flagByte_carryOf]
  · rw [getV_setWithFlag_of_ne hx, toNat_sub_byte]
  · rw [getV_setWithFlag_regF, flagByte_noBorrowOf]
  · rw [getV_setWithFlag_of_ne hx, toNat_sub_byte]
  · rw [getV_setWithFlag_regF, flagByte_noBorrowOf]

/-- Settles O29: each instruction is one `setWithFlag` of the operand the quirk selects; the bit shifted out is the
remainder of the halving, or the quotient by 128. -/
theorem shiftsByOneWithFlag : Obligations.ShiftsByOneWithFlag := by
  intro s x y a
  have ha : (shiftOperand x y s).toNat = a := toNat_shiftOperand x y s
  refine ⟨⟨_, exec_shrReg x y s, fun hx => ?_, ?_, changesOnly_setWithFlag s x _ _⟩,
    ⟨_, exec_shlReg x y s, fun hx => ?_, ?_, changesOnly_setWithFlag s x _ _⟩⟩
  · rw [getV_setWithFlag_of_ne hx, toNat_shiftRight_one, ha]
  · rw [getV_setWithFlag_regF, toNat_flagByte_shiftedOutRight, ha]
  · rw [getV_setWithFlag_of_ne hx, toNat_shiftLeft_one, ha]
  · rw [getV_setWithFlag_regF, toNat_flagByte_shiftedOutLeft, ha]

end Sys2Proof.Machine

/-! PROOF. The index-register loads (43_index.md): what LD I and LD F answer, the loaded address as a number, and the
statement of this family. -/

namespace Sys2Proof.Machine

/-! ### One equation per instruction (R150, R152) -/

theorem exec_ldI (nnn : Addr12) (s : State) : exec (.ldI nnn) s = .next (s.setI (zext16 nnn)) := rfl

theorem exec_ldF (x : Nibble) (s : State) : exec (.ldF x) s = .next (s.setI (glyphAddr (s.getV x))) := rfl

/-! ### The loaded addresses as numbers -/

theorem toNat_zext16 (nnn : Addr12) : (zext16 nnn).toNat = nnn.toNat :=
  BitVec.toNat_setWidth_of_le (by decide)

theorem toNat_lowNibble (v : Byte) : (v &&& 0x0F).toNat = v.toNat % 16 :=
  Nat.and_two_pow_sub_one_eq_mod v.toNat 4

/-- Five times a nibble added to 0x0090 is at most 0x00DB, so the sum in 16 bits does not wrap. -/
theorem toNat_glyphAddr (v : Byte) : (glyphAddr v).toNat = 0x0090 + 5 * (v.toNat % 16) := by
  have hnibble : ((v &&& 0x0F).zeroExtend 16).toNat = v.toNat % 16 := by
    rw [BitVec.zeroExtend, BitVec.toNat_setWidth_of_le (by decide), toNat_lowNibble]
  rw [glyphAddr]
  bv_omega

/-! ### The statement -/

/-- Settles O30: each instruction is one write of I, with the loaded address as its value and I as its frame. -/
theorem indexLoads : Obligations.IndexLoads := by
  intro s x nnn
  refine ⟨⟨_, exec_ldI nnn s, ?_, changesOnly_setI s _⟩, ⟨_, exec_ldF x s, ?_, changesOnly_setI s _⟩⟩
  · rw [State.setI_i, toNat_zext16]
  · rw [State.setI_i, toNat_glyphAddr]

end Sys2Proof.Machine

/-! PROOF. The instruction encoding (30_encoding.md): the decoder op by op, both directions of the round trip, the Unknown
words, and decoding from bytes. -/

namespace Sys2Proof

/-! ### Encode, then decode -/

/-- Settles O1: the fields of an assembled word are its parts, so the op nibble selects the row of the instruction, and
for ops 0, 8, E and F the row's lowest byte or nibble selects the instruction in it. -/
theorem decodeOfEncode : Obligations.DecodeOfEncode := by
  intro i
  cases i with
  | cls | ret => simp [encode, decode, decodeOp0]
  | jp | call | ldI | jpV0 => simp [encode, decode]
  | seImm | sneImm | ldImm | addImm | rnd => simp [encode, decode]
  | seReg | sneReg | drw => simp [encode, decode]
  | ldReg | orReg | andReg | xorReg | addReg | subReg | shrReg | subnReg | shlReg => simp [encode, decode, decodeOp8]
  | skp | sknp => simp [encode, decode, decodeOpE]
  | ldFromDt | ldKey | ldToDt | ldToSt | addI | ldF | ldBcd | ldStore | ldLoad => simp [encode, decode, decodeOpF]

/-! ### Decode, then encode -/

section
variable {w : Word} {i : Instr}

/-- A word is its op, x and lowest byte, the last two as numbers the decoder compared. -/
theorem wordXkk_of_fields {op : Nibble} {kk : Byte} (hop : fieldOp w = op) (hkk : fieldKk w = kk) :
    wordXkk op (fieldX w) kk = w := by
  rw [← hop, ← hkk, wordXkk_fields]

theorem wordXyn_of_fields {op n : Nibble} (hop : fieldOp w = op) (hn : fieldN w = n) :
    wordXyn op (fieldX w) (fieldY w) n = w := by
  rw [← hop, ← hn, wordXyn_fields]

theorem wordNnn_of_field {op : Nibble} (hop : fieldOp w = op) : wordNnn op (fieldNnn w) = w := by
  rw [← hop, wordNnn_fields]

theorem encode_of_decodeOp0 (hop : fieldOp w = 0x0) (h : decodeOp0 w = some i) : encode i = w := by
  simp only [decodeOp0] at h
  split_ifs at h with hkk hkk <;> cases h <;> exact wordXkk_of_fields hop hkk

theorem encode_of_decodeOp8 (hop : fieldOp w = 0x8) (h : decodeOp8 w = some i) : encode i = w := by
  simp only [decodeOp8] at h
  split at h <;> cases h <;> next hn => exact wordXyn_of_fields hop (BitVec.eq_of_toNat_eq hn)

theorem encode_of_decodeOpE (hop : fieldOp w = 0xE) (h : decodeOpE w = some i) : encode i = w := by
  simp only [decodeOpE] at h
  split_ifs at h with hkk hkk <;> cases h <;> exact wordXkk_of_fields hop hkk

theorem encode_of_decodeOpF (hop : fieldOp w = 0xF) (h : decodeOpF w = some i) : encode i = w := by
  simp only [decodeOpF] at h
  split_ifs at h with hkk hkk hkk hkk hkk hkk hkk hkk hkk <;> cases h <;> exact wordXkk_of_fields hop hkk

end

/-- Settles O2: the op nibble names the row; in it the word is its fields put together again, the fixed ones being those
the decoder compared. -/
theorem decodedWordIsEncoded : Obligations.DecodedWordIsEncoded := by
  intro w i h
  simp only [decode] at h
  split at h
  case h_1 hop => exact encode_of_decodeOp0 (BitVec.eq_of_toNat_eq hop) h
  case h_9 hop => exact encode_of_decodeOp8 (BitVec.eq_of_toNat_eq hop) h
  case h_15 hop => exact encode_of_decodeOpE (BitVec.eq_of_toNat_eq hop) h
  case h_16 hop => exact encode_of_decodeOpF (BitVec.eq_of_toNat_eq hop) h
  case h_6 hop | h_10 hop =>
    split_ifs at h with hn
    cases h
    exact wordXyn_of_fields (BitVec.eq_of_toNat_eq hop) hn
  case h_2 hop | h_3 hop | h_11 hop | h_12 hop => cases h; exact wordNnn_of_field (BitVec.eq_of_toNat_eq hop)
  case h_4 hop | h_5 hop | h_7 hop | h_8 hop | h_13 hop =>
    cases h; exact wordXkk_of_fields (BitVec.eq_of_toNat_eq hop) rfl
  case h_14 hop => cases h; exact wordXyn_of_fields (BitVec.eq_of_toNat_eq hop) rfl
  case h_17 => cases h

/-! ### The Unknown words (R87) -/

theorem toNat_fieldOp (w : Word) : (fieldOp w).toNat = w.toNat / 4096 := by
  rw [fieldOp, BitVec.extractLsb'_toNat, Nat.shiftRight_eq_div_pow]
  omega

theorem toNat_fieldN (w : Word) : (fieldN w).toNat = w.toNat % 16 := by
  rw [fieldN, BitVec.extractLsb'_toNat, Nat.shiftRight_zero]

theorem toNat_fieldKk (w : Word) : (fieldKk w).toNat = w.toNat % 256 := by
  rw [fieldKk, BitVec.extractLsb'_toNat, Nat.shiftRight_zero]

/-- One comparison of a decoder: Unknown when it fails and so do the rest. -/
theorem ite_some_eq_none_iff {p : Prop} [Decidable p] (i : Instr) (o : Option Instr) :
    (if p then some i else o) = none ↔ ¬ p ∧ o = none := by
  split <;> simp [*]

theorem decodeOp0_eq_none_iff (w : Word) : decodeOp0 w = none ↔ fieldKk w ≠ 0xE0 ∧ fieldKk w ≠ 0xEE := by
  simp [decodeOp0, ite_some_eq_none_iff]

theorem decodeOp8_eq_none_iff (w : Word) :
    decodeOp8 w = none ↔ (fieldN w).toNat ∈ [0x8, 0x9, 0xA, 0xB, 0xC, 0xD, 0xF] := by
  obtain h | h | h | h | h | h | h | h | h | h | h | h | h | h | h | h := nibble_cases (fieldN w) <;>
    simp [decodeOp8, h]

theorem decodeOpE_eq_none_iff (w : Word) : decodeOpE w = none ↔ fieldKk w ≠ 0x9E ∧ fieldKk w ≠ 0xA1 := by
  simp [decodeOpE, ite_some_eq_none_iff]

theorem decodeOpF_eq_none_iff (w : Word) :
    decodeOpF w = none ↔ (fieldKk w).toNat ∉ [0x07, 0x0A, 0x15, 0x18, 0x1E, 0x29, 0x33, 0x55, 0x65] := by
  simp [decodeOpF, ite_some_eq_none_iff, BitVec.toNat_eq]

/-- Settles O3: op by op; only in ops 0, 5, 8, 9, E and F can the rest of a word be no row's. -/
theorem unknownSpaceIsTheListedWords : Obligations.UnknownSpaceIsTheListedWords := by
  intro w
  rw [← toNat_fieldOp, ← toNat_fieldN, ← toNat_fieldKk]
  obtain h | h | h | h | h | h | h | h | h | h | h | h | h | h | h | h := nibble_cases (fieldOp w) <;>
    simp [decode, h, decodeOp0_eq_none_iff, decodeOp8_eq_none_iff, decodeOpE_eq_none_iff, decodeOpF_eq_none_iff,
      BitVec.toNat_eq]

/-! ### Decoding from bytes (R81) -/

theorem decodeBytes_cons_cons (hi lo : Byte) (bytes rest : List Byte) (i : Instr) :
    decodeBytes (hi :: lo :: bytes) = .ok (i, rest) ↔ decode (hi ++ lo) = some i ∧ bytes = rest := by
  simp only [decodeBytes, wordOfBytes]
  cases decode (hi ++ lo) <;> simp

/-- Settles O4: fewer than two bytes are truncated, and of two or more the first two are the word. -/
theorem everyInstructionIsTwoBytes : Obligations.EveryInstructionIsTwoBytes := by
  intro bytes rest i
  match bytes with
  | [] => simp [decodeBytes]
  | [_] => simp [decodeBytes]
  | hi :: lo :: bytes =>
    rw [decodeBytes_cons_cons]
    constructor
    · rintro ⟨h, rfl⟩
      exact ⟨hi, lo, rfl, h⟩
    · rintro ⟨_, _, e, h⟩
      cases e
      exact ⟨h, rfl⟩

/-- Settles O5: each of the seventeen words is written out, so the decoder runs on it. -/
theorem sampleWordsDecode : Obligations.SampleWordsDecode := by
  unfold Obligations.SampleWordsDecode
  decide

end Sys2Proof

/-! PROOF. The 2-byte accesses (20_memory.md §2 and §3): the checked word write, and a word read as two byte reads. -/

namespace Sys2Proof.Machine

/-! ### A word's bytes as numbers -/

theorem toNat_hiByte (v : Word) : (hiByte v).toNat = v.toNat / 256 := by
  rw [hiByte, BitVec.extractLsb'_toNat, Nat.shiftRight_eq_div_pow]
  omega

theorem toNat_loByte (v : Word) : (loByte v).toNat = v.toNat % 256 := by
  rw [loByte, BitVec.extractLsb'_toNat, Nat.shiftRight_zero]

/-! ### Two bytes stored side by side -/

theorem byteAt_setByte_setByte_fst {s : State} (h : memWf s.mem = true) (a : Nat) (b c : Byte) :
    ((s.setByte a b).setByte (a + 1) c).byteAt a = b := by
  rw [State.byteAt_setByte (State.memWf_setByte h a b), if_neg (by omega), State.byteAt_setByte h, if_pos rfl]

theorem byteAt_setByte_setByte_snd {s : State} (h : memWf s.mem = true) (a : Nat) (b c : Byte) :
    ((s.setByte a b).setByte (a + 1) c).byteAt (a + 1) = c := by
  rw [State.byteAt_setByte (State.memWf_setByte h a b), if_pos rfl]

theorem changesOnly_setByte_setByte {s : State} (h : memWf s.mem = true) (a : Nat) (b c : Byte) :
    ChangesOnly [.mem a, .mem (a + 1)] s ((s.setByte a b).setByte (a + 1) c) :=
  ((changesOnly_setByte h a b).mono (by simp)).trans
    ((changesOnly_setByte (State.memWf_setByte h a b) (a + 1) c).mono (by simp))

/-! ### The checked word write (R58) -/

theorem write16_of_permitted {a : Word} (h : permitted16 a = true) (v : Word) (s : State) :
    write16 a v s = (true, (s.setByte a.toNat (hiByte v)).setByte (a.toNat + 1) (loByte v)) := if_pos h

theorem write16_of_refused {a : Word} (h : ¬ permitted16 a = true) (v : Word) (s : State) :
    write16 a v s = (false, s.emit ⟨.write, .bits16, a⟩) := if_neg h

/-- Settles O9: a permitted write stores the word's two bytes side by side, high byte first; a refused one is `emit`. -/
theorem checkedWordWrite : Obligations.CheckedWordWrite := by
  intro s a v hwf
  split
  · next hr => exact write16_of_refused ((not_permitted16_iff_tag a).2 hr) v s
  · next hr =>
    have hp : permitted16 a = true := not_not.1 (mt (not_permitted16_iff_tag a).1 hr)
    refine ⟨_, write16_of_permitted hp v s, ?_, ?_, changesOnly_setByte_setByte hwf _ _ _⟩
    · rw [byteAt_setByte_setByte_fst hwf, toNat_hiByte]
    · rw [byteAt_setByte_setByte_snd hwf, toNat_loByte]

/-! ### A word read is two byte reads (R61) -/

/-- Where a 2-byte access is permitted, so are the 1-byte accesses of its two bytes, and the address does not wrap. -/
theorem permitted8_of_permitted16 {a : Word} (h : permitted16 a = true) :
    permitted8 a = true ∧ permitted8 (a + 1) = true ∧ (a + 1).toNat = a.toNat + 1 := by
  rw [permitted16_iff] at h
  rw [permitted8_iff, permitted8_iff]
  bv_omega

/-- Settles O11: none of the three accesses is refused, so each gives the stored bytes and leaves the state. -/
theorem wordReadIsTwoByteReads : Obligations.WordReadIsTwoByteReads := by
  intro s a h
  obtain ⟨hfst, hsnd, hnext⟩ := permitted8_of_permitted16 h
  rw [read16_of_permitted h, read8_of_permitted hfst, read8_of_permitted hsnd, hnext]
  exact ⟨rfl, rfl, rfl, rfl⟩

end Sys2Proof.Machine

/-! PROOF. The instructions that write registers alone: jumps (40_control_flow.md §3), logic (42_alu.md §2), the index sum
(43_index.md), the random draw (44_random.md), the key skips (46_input.md) and the timer copies (47_timers.md). -/

namespace Sys2Proof.Machine

/-! ### One equation per instruction -/

theorem exec_jp (nnn : Addr12) (s : State) :
    exec (.jp nnn) s = .next (if zext16 nnn = s.fetchAddr then (s.setPc (zext16 nnn)).setRun .pausedOnSelfJump
      else s.setPc (zext16 nnn)) := rfl

theorem exec_jpV0 (nnn : Addr12) (s : State) : exec (.jpV0 nnn) s = .next (s.setPc (indexedTarget nnn (s.getV 0))) := rfl

theorem exec_orReg (x y : Nibble) (s : State) : exec (.orReg x y) s = .next (s.setV x (s.getV x ||| s.getV y)) := rfl

theorem exec_andReg (x y : Nibble) (s : State) : exec (.andReg x y) s = .next (s.setV x (s.getV x &&& s.getV y)) := rfl

theorem exec_xorReg (x y : Nibble) (s : State) : exec (.xorReg x y) s = .next (s.setV x (s.getV x ^^^ s.getV y)) := rfl

theorem exec_rnd (x : Nibble) (kk : Byte) (s : State) :
    exec (.rnd x kk) s = .next (s.setV x (Config.rng s.draws &&& kk)).countDraw := rfl

theorem exec_skp (x : Nibble) (s : State) : exec (.skp x) s = .next (skipIf (keyHeld (s.getV x) s) s) := rfl

theorem exec_sknp (x : Nibble) (s : State) : exec (.sknp x) s = .next (skipIf (!keyHeld (s.getV x) s) s) := rfl

theorem exec_ldFromDt (x : Nibble) (s : State) : exec (.ldFromDt x) s = .next (s.setV x s.dt) := rfl

theorem exec_ldKey (x : Nibble) (s : State) : exec (.ldKey x) s = .next (s.setRun (.pausedOnKeyWait x)) := rfl

theorem exec_ldToDt (x : Nibble) (s : State) : exec (.ldToDt x) s = .next (s.setDt (s.getV x)) := rfl

theorem exec_ldToSt (x : Nibble) (s : State) : exec (.ldToSt x) s = .next (s.setSt (s.getV x)) := rfl

theorem exec_addI (x : Nibble) (s : State) :
    exec (.addI x) s = .next (s.setI (s.i + (s.getV x).zeroExtend 16)) := rfl

/-! ### Jumps -/

theorem fetchAddr_of_pc {s : State} {a : Word} (h : s.pc = a + 2) : s.fetchAddr = a := by
  rw [State.fetchAddr, h]
  exact BitVec.add_sub_cancel a 2

theorem zext16_eq_iff (nnn : Addr12) (a : Word) : zext16 nnn = a ↔ a.toNat = nnn.toNat := by
  rw [BitVec.toNat_eq, toNat_zext16, eq_comm]

/-- Settles O19: the test of the jump compares its target with the fetch address, which is `a`. -/
theorem jpJumpsAndDetectsSelfJump : Obligations.JpJumpsAndDetectsSelfJump := by
  intro s nnn a hpc
  have hpcFrame : ChangesOnly [.pc, .run] s (s.setPc (zext16 nnn)) := (changesOnly_setPc s _).mono (by simp)
  refine ⟨_, exec_jp nnn s, ?_⟩
  rw [fetchAddr_of_pc hpc]
  by_cases hself : a.toNat = nnn.toNat
  · rw [if_pos ((zext16_eq_iff nnn a).2 hself), if_pos hself]
    exact ⟨toNat_zext16 nnn, rfl, fun _ => ⟨rfl, rfl⟩, hpcFrame.trans ((changesOnly_setRun _ _).mono (by simp))⟩
  · rw [if_neg (mt (zext16_eq_iff nnn a).1 hself), if_neg hself]
    exact ⟨toNat_zext16 nnn, rfl, fun h => absurd h hself, hpcFrame⟩

/-- The largest sum is 0x0FFF + 0xFF, so it does not wrap. -/
theorem toNat_indexedTarget (nnn : Addr12) (v0 : Byte) : (indexedTarget nnn v0).toNat = nnn.toNat + v0.toNat := by
  have hnnn := toNat_zext16 nnn
  have hv0 : (v0.zeroExtend 16).toNat = v0.toNat := BitVec.toNat_setWidth_of_le (by decide)
  rw [indexedTarget]
  bv_omega

/-- Settles O25: JP V0 is one write of PC. -/
theorem indexedJumpAddsV0 : Obligations.IndexedJumpAddsV0 := by
  intro s nnn
  exact ⟨_, exec_jpV0 nnn s, toNat_indexedTarget nnn (s.getV 0), changesOnly_setPc s _⟩

/-! ### Logic -/

/-- Settles O27: each instruction is one write of V[x]. -/
theorem logicLeavesTheFlag : Obligations.LogicLeavesTheFlag := by
  intro s x y
  exact ⟨⟨_, exec_orReg x y s, s.getV_setV_same x _, changesOnly_setV s x _⟩,
    ⟨_, exec_andReg x y s, s.getV_setV_same x _, changesOnly_setV s x _⟩,
    ⟨_, exec_xorReg x y s, s.getV_setV_same x _, changesOnly_setV s x _⟩⟩

/-! ### The index sum and the random draw -/

/-- Settles O31: ADD I is one write of I, with a 16-bit sum. -/
theorem indexAdd : Obligations.IndexAdd := by
  intro s x
  refine ⟨_, exec_addI x s, ?_, changesOnly_setI s _⟩
  rw [State.setI_i, BitVec.toNat_add, BitVec.zeroExtend, BitVec.toNat_setWidth_of_le (by decide)]

theorem and_and_not_self (a kk : Byte) : a &&& kk &&& ~~~kk = 0 := by
  rw [BitVec.and_assoc, BitVec.and_not_self]
  exact BitVec.and_zero

/-- Settles O32: RND writes the masked draw, and counts it; the mask clears every bit outside kk whatever the draw. -/
theorem randomIsAMaskedFreeDraw : Obligations.RandomIsAMaskedFreeDraw := by
  intro s x kk
  have hvx : ((s.setV x (Config.rng s.draws &&& kk)).countDraw).getV x = Config.rng s.draws &&& kk :=
    s.getV_setV_same x _
  refine ⟨_, exec_rnd x kk s, hvx, rfl, ?_, ?_⟩
  · rw [hvx, and_and_not_self]
  · exact ((changesOnly_setV s x _).mono (by simp)).trans ((changesOnly_countDraw _).mono (by simp))

/-! ### Key skips -/

theorem keyHeld_iff (v : Byte) (s : State) :
    keyHeld v s = true ↔ v.toNat ≤ 15 ∧ s.held.getLsbD v.toNat = true := by
  rw [keyHeld, Bool.and_eq_true, decide_eq_true_eq]

/-- Settles O36: both are `skipIf` of the same test, which SKNP negates. -/
theorem keySkips : Obligations.KeySkips := by
  intro s x isHeld
  have htest : keyHeld (s.getV x) s = true ↔ isHeld := keyHeld_iff (s.getV x) s
  refine ⟨⟨_, exec_skp x s, changesOnly_skipIf s _, fun h => ?_, fun h => ?_⟩,
    ⟨_, exec_sknp x s, changesOnly_skipIf s _, fun h => ?_, fun h => ?_⟩⟩
  · rw [htest.2 h]; rfl
  · rw [Bool.eq_false_iff.2 (mt htest.1 h)]; rfl
  · rw [htest.2 h]; rfl
  · rw [Bool.eq_false_iff.2 (mt htest.1 h)]; rfl

/-! ### Timer copies -/

/-- Settles O38: each instruction is one write of its destination. -/
theorem timerCopies : Obligations.TimerCopies := by
  intro s x
  exact ⟨⟨_, exec_ldFromDt x s, s.getV_setV_same x _, changesOnly_setV s x _⟩,
    ⟨_, exec_ldToDt x s, rfl, changesOnly_setDt s _⟩, ⟨_, exec_ldToSt x s, rfl, changesOnly_setSt s _⟩⟩

end Sys2Proof.Machine

/-! PROOF. The call-stack engine (10_state.md §6, 40_control_flow.md §2) and CALL over it: the push of a slot, the round
trip with RET, and the stack as a list. -/

namespace Sys2Proof.Machine

/-! ### A pushed slot -/

/-- The state after a push with room: SP on the next slot, and the word big-endian in it (R101). -/
def pushed (v : Word) (s : State) : State :=
  ((s.setSp (s.sp + 2)).setByte (s.sp.toNat + 2) (hiByte v)).setByte (s.sp.toNat + 2 + 1) (loByte v)

theorem push_of_full {s : State} (h : s.sp = 0xFE) (v : Word) : push v s = none := by
  rw [push, h]
  rfl

theorem push_of_room {s : State} (hok : spOk s.sp = true) (h : s.sp ≠ 0xFE) (v : Word) :
    push v s = some (pushed v s) := (push_eq hok v).trans (if_neg h)

theorem pop_of_empty {s : State} (h : s.sp = 0xE0) : pop s = none := if_pos h

theorem pop_of_nonempty {s : State} (hok : spOk s.sp = true) (h : s.sp ≠ 0xE0) :
    pop s = some (slotWord s s.sp.toNat, s.setSp (s.sp - 2)) := (pop_eq hok).trans (if_neg h)

theorem memWf_pushed {s : State} (h : memWf s.mem = true) (v : Word) : memWf (pushed v s).mem = true :=
  memWf_memWrite (memWf_memWrite h _ _) _ _

theorem byteAt_pushed_hi {s : State} (h : memWf s.mem = true) (v : Word) :
    (pushed v s).byteAt (s.sp.toNat + 2) = hiByte v :=
  byteAt_setByte_setByte_fst (s := s.setSp (s.sp + 2)) h _ _ _

theorem byteAt_pushed_lo {s : State} (h : memWf s.mem = true) (v : Word) :
    (pushed v s).byteAt (s.sp.toNat + 2 + 1) = loByte v :=
  byteAt_setByte_setByte_snd (s := s.setSp (s.sp + 2)) h _ _ _

theorem changesOnly_pushed {s : State} (h : memWf s.mem = true) (v : Word) :
    ChangesOnly [.sp, .mem (s.sp.toNat + 2), .mem (s.sp.toNat + 2 + 1)] s (pushed v s) :=
  ((changesOnly_setSp s _).mono (by simp)).trans
    ((changesOnly_setByte_setByte (s := s.setSp (s.sp + 2)) h _ _ _).mono (by simp))

/-! ### SP as a number, off the ends of the stack -/

section
variable {sp : Byte} (hok : spOk sp = true)
include hok

/-- The highest address of the slot above SP is in the stack region. -/
theorem toNat_sp_le_of_ne_full (h : sp ≠ 0xFE) : sp.toNat ≤ 0xFC := by
  rw [spOk_iff] at hok
  bv_omega

theorem le_toNat_sp_of_ne_empty (h : sp ≠ 0xE0) : 0xE2 ≤ sp.toNat := by
  rw [spOk_iff] at hok
  bv_omega

theorem toNat_sp_add_two (h : sp ≠ 0xFE) : (sp + 2).toNat = sp.toNat + 2 := by
  have := toNat_sp_le_of_ne_full hok h
  bv_omega

theorem toNat_sp_sub_two (h : sp ≠ 0xE0) : (sp - 2).toNat = sp.toNat - 2 := by
  have := le_toNat_sp_of_ne_empty hok h
  bv_omega

end

/-! ### CALL (R108) -/

theorem exec_call_of_full {s : State} (h : s.sp = 0xFE) (nnn : Addr12) :
    exec (.call nnn) s = .next (raiseFatal .stackOverflow (encode (.call nnn)) s) := by
  simp only [exec, execCall, push_of_full h]

theorem exec_call_of_room {s : State} (hok : spOk s.sp = true) (h : s.sp ≠ 0xFE) (nnn : Addr12) :
    exec (.call nnn) s = .next ((pushed s.pc s).setPc (zext16 nnn)) := by
  simp only [exec, execCall, push_of_room hok h]

/-- Settles O20: the full stack raises StackOverflow, which writes the run state alone; with room the advanced PC is
pushed and PC is written. -/
theorem callPushesOrOverflows : Obligations.CallPushesOrOverflows := by
  intro s nnn hwf hok
  split
  · next hfull => exact ⟨_, exec_call_of_full hfull nnn, ⟨_, rfl, rfl⟩, changesOnly_raiseFatal s _ _⟩
  · next hroom =>
    refine ⟨_, exec_call_of_room hok hroom nnn, toNat_zext16 nnn, rfl, ?_, ?_, ?_⟩
    · rw [State.setPc_byteAt, byteAt_pushed_hi hwf, toNat_hiByte]
    · rw [State.setPc_byteAt, byteAt_pushed_lo hwf, toNat_loByte]
    · exact ((changesOnly_pushed hwf s.pc).mono (by simp)).trans ((changesOnly_setPc _ _).mono (by simp))

/-! ### CALL, then RET -/

/-- RET from any state whose SP is on the slot CALL pushed, the two bytes unchanged, finds the pushed word there. -/
theorem slotWord_of_pushed {s m : State} (hwf : memWf s.mem = true) (v : Word)
    (hhi : m.byteAt (s.sp.toNat + 2) = (pushed v s).byteAt (s.sp.toNat + 2))
    (hlo : m.byteAt (s.sp.toNat + 2 + 1) = (pushed v s).byteAt (s.sp.toNat + 2 + 1)) :
    slotWord m (s.sp.toNat + 2) = v := by
  rw [slotWord, hhi, hlo, byteAt_pushed_hi hwf, byteAt_pushed_lo hwf, wordOfBytes_hiByte_loByte]

/-- Settles O21: the SP that CALL leaves is on a slot other than the first, so RET pops, and it pops the pushed word. -/
theorem callThenRetReturns : Obligations.CallThenRetReturns := by
  intro s nnn ign hwf hok hroom
  refine ⟨_, exec_call_of_room hok hroom nnn, fun m hsp hhi hlo => ?_⟩
  have hsp : m.sp = s.sp + 2 := hsp
  have hval : (s.sp + 2).toNat = s.sp.toNat + 2 := toNat_sp_add_two hok hroom
  have hnonempty : m.sp ≠ 0xE0 := by
    rw [spOk_iff] at hok
    rw [hsp]
    bv_omega
  have hslot : slotWord m m.sp.toNat = s.pc := by
    rw [hsp, hval]
    refine slotWord_of_pushed hwf s.pc ?_ ?_
    · rw [← hval]; exact hhi
    · rw [← hval]; exact hlo
  refine ⟨_, exec_ret_of_nonempty (hsp ▸ spOk_add_two hok hroom) hnonempty ign, hslot, ?_, ?_⟩
  · rw [State.setPc_sp, State.setSp_sp, hsp, BitVec.add_sub_cancel]
  · exact ((changesOnly_setSp m _).mono (by simp)).trans ((changesOnly_setPc _ _).mono (by simp))

/-! ### The stack as a list -/

/-- The k-th return address from the oldest, counting from 0. -/
def stackEntry (s : State) (k : Nat) : Word := slotWord s (0xE0 + 2 * (k + 1))

/-- The number of return addresses on the stack. -/
def stackDepth (s : State) : Nat := (s.sp.toNat - 0xE0) / 2

theorem stackList_eq (s : State) : stackList s = (List.range (stackDepth s)).map (stackEntry s) := rfl

theorem length_stackList (s : State) : (stackList s).length = stackDepth s := by
  rw [stackList_eq, List.length_map, List.length_range]

theorem stackDepth_le (s : State) : stackDepth s ≤ 15 := by
  have := s.sp.isLt
  rw [stackDepth]
  omega

theorem stackList_succ {s t : State} (hdepth : stackDepth t = stackDepth s + 1)
    (hsame : ∀ k < stackDepth s, stackEntry t k = stackEntry s k) :
    stackList t = stackList s ++ [stackEntry t (stackDepth s)] := by
  rw [stackList_eq, stackList_eq, hdepth, List.range_succ, List.map_append]
  congr 1
  exact List.map_congr_left fun k hk => hsame k (List.mem_range.1 hk)

section
variable {s : State} (hok : spOk s.sp = true)
include hok

theorem stackDepth_eq_fifteen_iff : stackDepth s = 15 ↔ s.sp = 0xFE := by
  rw [spOk_iff] at hok
  rw [stackDepth]
  bv_omega

theorem stackDepth_eq_zero_iff : stackDepth s = 0 ↔ s.sp = 0xE0 := by
  rw [spOk_iff] at hok
  rw [stackDepth]
  bv_omega

theorem push_eq_none_iff (v : Word) : push v s = none ↔ s.sp = 0xFE := by
  by_cases h : s.sp = 0xFE
  · exact iff_of_true (push_of_full h v) h
  · rw [push_of_room hok h]
    exact iff_of_false (Option.some_ne_none _) h

theorem pop_eq_none_iff : pop s = none ↔ s.sp = 0xE0 := by
  by_cases h : s.sp = 0xE0
  · exact iff_of_true (pop_of_empty h) h
  · rw [pop_of_nonempty hok h]
    exact iff_of_false (Option.some_ne_none _) h

theorem stackDepth_pushed (h : s.sp ≠ 0xFE) (v : Word) : stackDepth (pushed v s) = stackDepth s + 1 := by
  have hval : (pushed v s).sp.toNat = s.sp.toNat + 2 := toNat_sp_add_two hok h
  rw [spOk_iff] at hok
  rw [stackDepth, stackDepth, hval]
  omega

/-- The slots at or below SP are below the bytes a push stores. -/
theorem stackEntry_pushed (hwf : memWf s.mem = true) (v : Word) {k : Nat} (hk : k < stackDepth s) :
    stackEntry (pushed v s) k = stackEntry s k := by
  rw [spOk_iff] at hok
  rw [stackDepth] at hk
  have hbyte : ∀ a < s.sp.toNat + 2, (pushed v s).byteAt a = s.byteAt a := fun a ha =>
    changesOnly_pushed hwf v (.mem a) (by simp; omega)
  rw [stackEntry, stackEntry, slotWord, slotWord, hbyte _ (by omega), hbyte _ (by omega)]

theorem stackEntry_pushed_top (hwf : memWf s.mem = true) (v : Word) : stackEntry (pushed v s) (stackDepth s) = v := by
  rw [spOk_iff] at hok
  have haddr : 0xE0 + 2 * (stackDepth s + 1) = s.sp.toNat + 2 := by rw [stackDepth]; omega
  rw [stackEntry, haddr]
  exact slotWord_of_pushed hwf v rfl rfl

/-- A push appends its word (R101). -/
theorem stackList_pushed (hwf : memWf s.mem = true) (h : s.sp ≠ 0xFE) (v : Word) :
    stackList (pushed v s) = stackList s ++ [v] := by
  rw [stackList_succ (stackDepth_pushed hok h v) fun k hk => stackEntry_pushed hok hwf v hk,
    stackEntry_pushed_top hok hwf]

/-- A pop takes the last word (R102). -/
theorem stackList_popped (h : s.sp ≠ 0xE0) :
    stackList s = stackList (s.setSp (s.sp - 2)) ++ [slotWord s s.sp.toNat] := by
  have hval : (s.setSp (s.sp - 2)).sp.toNat = s.sp.toNat - 2 := toNat_sp_sub_two hok h
  have hlow := le_toNat_sp_of_ne_empty hok h
  rw [spOk_iff] at hok
  have hdepth : stackDepth s = stackDepth (s.setSp (s.sp - 2)) + 1 := by
    rw [stackDepth, stackDepth, hval]
    omega
  have haddr : 0xE0 + 2 * (stackDepth (s.setSp (s.sp - 2)) + 1) = s.sp.toNat := by
    rw [stackDepth, hval]
    omega
  rw [stackList_succ hdepth fun _ _ => rfl, stackEntry, haddr]

end

/-- Settles O23: the depth counts the slots from 0xE2 to SP, so its bounds are the tests of push and pop; a push stores
above the slots of the list, and a pop moves SP alone. -/
theorem stackEngineRefinesAList : Obligations.StackEngineRefinesAList := by
  intro s v hwf hok
  refine ⟨?_, ?_, fun t ht => ?_, ?_, fun w t ht => ?_⟩
  · rw [length_stackList]
    exact stackDepth_le s
  · rw [push_eq_none_iff hok, length_stackList, stackDepth_eq_fifteen_iff hok]
  · have hroom : s.sp ≠ 0xFE := fun hfull => by simp [push_of_full hfull] at ht
    cases (push_of_room hok hroom v).symm.trans ht
    exact ⟨stackList_pushed hok hwf hroom v, spOk_add_two hok hroom, memWf_pushed hwf v⟩
  · rw [pop_eq_none_iff hok, ← List.length_eq_zero_iff, length_stackList, stackDepth_eq_zero_iff hok]
  · have hnonempty : s.sp ≠ 0xE0 := fun hempty => by simp [pop_of_empty hempty] at ht
    cases (pop_of_nonempty hok hnonempty).symm.trans ht
    exact ⟨stackList_popped hok hnonempty, spOk_sub_two hok hnonempty, rfl⟩

end Sys2Proof.Machine

/-! PROOF. BCD store and bulk transfer (48_bcd_bulk.md): a byte written at one offset and read at another, the three
digits, and the runs of stores and loads. -/

namespace Sys2Proof.Machine

/-! ### Offsets and register numbers that are nibbles -/

theorem offsetAddr_toNat (a : Word) (k : Nibble) : offsetAddr a k.toNat = a + k.zeroExtend 16 := by
  rw [offsetAddr, BitVec.ofNat_toNat, BitVec.zeroExtend]

theorem regOfNat_toNat (k : Nibble) : regOfNat k.toNat = k := by
  rw [regOfNat, BitVec.ofNat_toNat, BitVec.setWidth_eq]

theorem toNat_indexAfterBulk (x : Nibble) (s : State) :
    (indexAfterBulk x s).toNat = if s.quirkLdstNoInc then s.i.toNat else (s.i.toNat + x.toNat + 1) % 65536 := by
  rw [indexAfterBulk]
  split
  · rfl
  · rw [toNat_offsetAddr, Nat.add_assoc]

/-! ### One checked write of a run -/

section
variable {s : State} (hwf : memWf s.mem = true) (base : Word)
include hwf

theorem byteAt_write8_same {k : Nat} (hp : permitted8 (offsetAddr base k) = true) (v : Byte) :
    (write8 (offsetAddr base k) v s).2.byteAt (offsetAddr base k).toNat = v := by
  rw [byteAt_write8 hwf, if_pos ⟨hp, rfl⟩]

theorem byteAt_write8_of_ne {j k : Nat} (hj : j < 16) (hk : k < 16) (hne : j ≠ k) (v : Byte) :
    (write8 (offsetAddr base k) v s).2.byteAt (offsetAddr base j).toNat = s.byteAt (offsetAddr base j).toNat := by
  rw [byteAt_write8 hwf, if_neg fun ⟨_, h⟩ => hne (offsetAddr_inj hj hk h)]

theorem changesOnly_write8_of_lt {k n : Nat} (hk : k < n) (v : Byte) :
    ChangesOnly (.log :: storedBytes base n) s (write8 (offsetAddr base k) v s).2 := by
  refine (changesOnly_write8 hwf (offsetAddr base k) v).mono fun c hc => ?_
  split at hc
  · next hp =>
    simp only [List.mem_cons, List.not_mem_nil, or_false, mem_storedBytes] at hc ⊢
    exact hc.imp_right fun e => ⟨k, hk, hp, e⟩
  · exact List.mem_cons.2 (.inl (List.mem_singleton.1 hc))

end

/-! ### LD B (R210) -/

/-- The state after the three digits of `v` are stored, each by its own checked write. -/
def bcdStored (base : Word) (v : Byte) (s : State) : State :=
  (write8 (offsetAddr base 2) (ones v)
    (write8 (offsetAddr base 1) (tens v) (write8 (offsetAddr base 0) (hundreds v) s).2).2).2

theorem exec_ldBcd (x : Nibble) (s : State) : exec (.ldBcd x) s = .next (bcdStored s.i (s.getV x) s) := rfl

theorem toNat_hundreds (v : Byte) : (hundreds v).toNat = v.toNat / 10 ^ 2 % 10 := by
  have := v.isLt
  rw [hundreds, BitVec.toNat_ofNat]
  omega

theorem toNat_tens (v : Byte) : (tens v).toNat = v.toNat / 10 ^ 1 % 10 := by
  rw [tens, BitVec.toNat_ofNat]
  omega

theorem toNat_ones (v : Byte) : (ones v).toNat = v.toNat / 10 ^ 0 % 10 := by
  rw [ones, BitVec.toNat_ofNat]
  omega

theorem log_bcdStored (base : Word) (v : Byte) (s : State) :
    (bcdStored base v s).log = s.log ++ refusals .write base 3 := by
  have hnone : refusals .write base 0 = [] := rfl
  simp only [bcdStored, log_write8, refusals_succ, hnone, List.nil_append, List.append_assoc]

section
variable {s : State} (hwf : memWf s.mem = true) (base : Word) (v : Byte)
include hwf

theorem changesOnly_bcdStored : ChangesOnly (.log :: storedBytes base 3) s (bcdStored base v s) :=
  ((changesOnly_write8_of_lt hwf base (by decide) _).trans
    (changesOnly_write8_of_lt (memWf_write8 hwf _ _) base (by decide) _)).trans
    (changesOnly_write8_of_lt (memWf_write8 (memWf_write8 hwf _ _) _ _) base (by decide) _)

/-- A later digit's write leaves an earlier digit, because the three offsets differ. -/
theorem toNat_byteAt_bcdStored {k : Nat} (hk : k < 3) (hp : permitted8 (offsetAddr base k) = true) :
    ((bcdStored base v s).byteAt (offsetAddr base k).toNat).toNat = v.toNat / 10 ^ (2 - k) % 10 := by
  have hwf1 := memWf_write8 hwf (offsetAddr base 0) (hundreds v)
  have hwf2 := memWf_write8 hwf1 (offsetAddr base 1) (tens v)
  rw [bcdStored]
  match k, hk with
  | 0, _ =>
    rw [byteAt_write8_of_ne hwf2 base (by decide) (by decide) (by decide),
      byteAt_write8_of_ne hwf1 base (by decide) (by decide) (by decide), byteAt_write8_same hwf base hp, toNat_hundreds]
  | 1, _ =>
    rw [byteAt_write8_of_ne hwf2 base (by decide) (by decide) (by decide), byteAt_write8_same hwf1 base hp, toNat_tens]
  | 2, _ => rw [byteAt_write8_same hwf2 base hp, toNat_ones]

end

/-- Settles O39: the three writes are at distinct offsets, and each is its own checked write. -/
theorem bcdStoresThreeDigits : Obligations.BcdStoresThreeDigits := by
  intro s x hwf
  exact ⟨_, exec_ldBcd x s, fun k hk hp => toNat_byteAt_bcdStored hwf s.i (s.getV x) hk hp, log_bcdStored _ _ s,
    changesOnly_bcdStored hwf s.i (s.getV x)⟩

/-! ### LD [I] (R212) -/

theorem exec_ldStore (x : Nibble) (s : State) :
    exec (.ldStore x) s = .next ((storeRegs s.i (x.toNat + 1) s).setI (indexAfterBulk x s)) := rfl

/-- Settles O40: a run of stores, then one write of I. -/
theorem bulkStore : Obligations.BulkStore := by
  intro s x hwf
  refine ⟨_, exec_ldStore x s, fun k hk hp => ?_, toNat_indexAfterBulk x s, log_storeRegs _ _ s, ?_⟩
  · rw [← offsetAddr_toNat] at hp ⊢
    have hle : k.toNat ≤ x.toNat := BitVec.le_def.1 hk
    have hbyte := byteAt_storeRegs hwf s.i (x.toNat + 1) k.toNat x.isLt (by omega) hp
    rw [regOfNat_toNat] at hbyte
    exact hbyte
  · exact ((changesOnly_storeRegs hwf s.i _).mono (by simp +contextual)).trans
      ((changesOnly_setI _ _).mono (by simp))

/-! ### LD Vx, [I] (R214) -/

theorem exec_ldLoad (x : Nibble) (s : State) :
    exec (.ldLoad x) s = .next ((loadRegs s.i (x.toNat + 1) s).setI (indexAfterBulk x s)) := rfl

theorem getV_loadRegs_nibble (base : Word) (x k : Nibble) (s : State) :
    (loadRegs base (x.toNat + 1) s).getV k =
      if k ≤ x then readableByte s (base + k.zeroExtend 16) else s.getV k := by
  have hreg := getV_loadRegs base (x.toNat + 1) s k.toNat x.isLt k.isLt
  rw [regOfNat_toNat, offsetAddr_toNat] at hreg
  rw [hreg]
  simp only [BitVec.le_def, Nat.lt_succ_iff]

/-- Settles O41: a run of loads, then one write of I. -/
theorem bulkLoad : Obligations.BulkLoad := by
  intro s x
  refine ⟨_, exec_ldLoad x s, fun k hk => ?_, fun k hk => ?_, toNat_indexAfterBulk x s, log_loadRegs _ _ s, ?_⟩
  · rw [State.setI_getV, getV_loadRegs_nibble, if_pos hk, readableByte]
  · rw [State.setI_getV, getV_loadRegs_nibble, if_neg (BitVec.not_le.2 hk)]
  · exact ((changesOnly_loadRegs s s.i _).mono (by simp +contextual)).trans ((changesOnly_setI _ _).mono (by simp))

end Sys2Proof.Machine

/-! PROOF. What holds of every instruction: it answers a next state, it keeps to its footprint (10_state.md §1–§4,
20_memory.md §3), and it reads neither ST, nor the accumulator, nor the diagnostic output, nor, but for RND, the count of
draws. -/

namespace Sys2Proof.Machine

/-! ### The remaining equations, and totality -/

theorem exec_drw (x y n : Nibble) (s : State) :
    exec (.drw x y n) s =
      .next ((drawSprite (s.getV x) (s.getV y) s.i n.toNat s).2.setV regF
        (flagByte (drawSprite (s.getV x) (s.getV y) s.i n.toNat s).1)) := rfl

theorem exec_ret_of_pop {s t : State} {w : Word} (h : pop s = some (w, t)) (ign : Nibble) :
    exec (.ret ign) s = .next (t.setPc w) := by
  simp only [exec, execRet, h]

theorem exec_call_of_push {s t : State} (h : push s.pc s = some t) (nnn : Addr12) :
    exec (.call nnn) s = .next (t.setPc (zext16 nnn)) := by
  simp only [exec, execCall, h]

theorem exec_call_of_overflow {s : State} (h : push s.pc s = none) (nnn : Addr12) :
    exec (.call nnn) s = .next (raiseFatal .stackOverflow (encode (.call nnn)) s) := by
  simp only [exec, execCall, h]

theorem exec_ret_of_underrun {s : State} (h : pop s = none) (ign : Nibble) :
    exec (.ret ign) s = .next (raiseFatal .stackUnderrun (encode (.ret ign)) s) := by
  simp only [exec, execRet, h]

/-- No arm ends in a fault or a refusal; RET and CALL answer a Halted state where the stack engine gives nothing. -/
theorem exec_answers_next (i : Instr) (s : State) : ∃ t, exec i s = .next t := by
  cases i with
  | ret ign =>
    cases hpop : pop s with
    | none => exact ⟨_, exec_ret_of_underrun hpop ign⟩
    | some p => exact ⟨_, exec_ret_of_pop hpop ign⟩
  | call nnn =>
    cases hpush : push s.pc s with
    | none => exact ⟨_, exec_call_of_overflow hpush nnn⟩
    | some t => exact ⟨_, exec_call_of_push hpush nnn⟩
  | _ => exact ⟨_, rfl⟩

/-! ### Every instruction keeps to its footprint -/

theorem changesOnly_jp (nnn : Addr12) (s : State) :
    ChangesOnly [.pc, .run] s (if zext16 nnn = s.fetchAddr then (s.setPc (zext16 nnn)).setRun .pausedOnSelfJump
      else s.setPc (zext16 nnn)) := by
  have hpc : ChangesOnly [.pc, .run] s (s.setPc (zext16 nnn)) := (changesOnly_setPc s _).mono (by simp)
  split
  · exact hpc.trans ((changesOnly_setRun _ _).mono (by simp))
  · exact hpc

theorem exec_ret_keeps_footprint {s : State} (hok : spOk s.sp = true) (ign : Nibble) :
    ∃ t, exec (.ret ign) s = .next t ∧ ChangesOnly (footprint (.ret ign) s) s t := by
  rw [footprint]
  split
  · next hempty => exact ⟨_, exec_ret_of_empty hempty ign, changesOnly_raiseFatal s _ _⟩
  · next hslot =>
    exact ⟨_, exec_ret_of_nonempty hok hslot ign,
      ((changesOnly_setSp s _).mono (by simp)).trans ((changesOnly_setPc _ _).mono (by simp))⟩

theorem exec_call_keeps_footprint {s : State} (hwf : memWf s.mem = true) (hok : spOk s.sp = true) (nnn : Addr12) :
    ∃ t, exec (.call nnn) s = .next t ∧ ChangesOnly (footprint (.call nnn) s) s t := by
  rw [footprint]
  split
  · next hfull => exact ⟨_, exec_call_of_full hfull nnn, changesOnly_raiseFatal s _ _⟩
  · next hroom =>
    have hslot : bytesFrom (s.sp.toNat + 2) 2 = [.mem (s.sp.toNat + 2), .mem (s.sp.toNat + 2 + 1)] := rfl
    exact ⟨_, exec_call_of_room hok hroom nnn, ((changesOnly_pushed hwf s.pc).mono (by simp [hslot])).trans
      ((changesOnly_setPc _ _).mono (by simp))⟩

/-- The case split of the 34: the frame of the operation each one is. -/
theorem exec_keeps_footprint (i : Instr) {s : State} (hwf : memWf s.mem = true) (hok : spOk s.sp = true) :
    ∃ t, exec i s = .next t ∧ ChangesOnly (footprint i s) s t := by
  cases i with
  | cls ign => exact ⟨_, exec_cls ign s, changesOnly_clearDisplay hwf⟩
  | ret ign => exact exec_ret_keeps_footprint hok ign
  | jp nnn => exact ⟨_, exec_jp nnn s, changesOnly_jp nnn s⟩
  | call nnn => exact exec_call_keeps_footprint hwf hok nnn
  | seImm | sneImm | seReg | sneReg | skp | sknp => exact ⟨_, rfl, changesOnly_skipIf s _⟩
  | jpV0 nnn => exact ⟨_, exec_jpV0 nnn s, changesOnly_setPc s _⟩
  | ldImm | addImm | ldReg | orReg | andReg | xorReg | ldFromDt => exact ⟨_, rfl, changesOnly_setV s _ _⟩
  | addReg | subReg | shrReg | subnReg | shlReg => exact ⟨_, rfl, changesOnly_setWithFlag s _ _ _⟩
  | ldI | addI | ldF => exact ⟨_, rfl, changesOnly_setI s _⟩
  | rnd x kk =>
    exact ⟨_, exec_rnd x kk s,
      ((changesOnly_setV s x _).mono (by simp [footprint])).trans ((changesOnly_countDraw _).mono (by simp [footprint]))⟩
  | drw x y n =>
    exact ⟨_, exec_drw x y n s,
      ((changesOnly_drawSprite hwf (s.getV x) (s.getV y) s.i n.toNat).mono (by simp +contextual [footprint])).trans
        ((changesOnly_setV _ regF _).mono (by simp [footprint]))⟩
  | ldKey x => exact ⟨_, exec_ldKey x s, changesOnly_setRun s _⟩
  | ldToDt x => exact ⟨_, exec_ldToDt x s, changesOnly_setDt s _⟩
  | ldToSt x => exact ⟨_, exec_ldToSt x s, changesOnly_setSt s _⟩
  | ldBcd x => exact ⟨_, exec_ldBcd x s, changesOnly_bcdStored hwf s.i (s.getV x)⟩
  | ldStore x =>
    exact ⟨_, exec_ldStore x s, ((changesOnly_storeRegs hwf s.i _).mono (by simp +contextual [footprint])).trans
      ((changesOnly_setI _ _).mono (by simp [footprint]))⟩
  | ldLoad x =>
    exact ⟨_, exec_ldLoad x s, ((changesOnly_loadRegs s s.i _).mono (by simp +contextual [footprint])).trans
      ((changesOnly_setI _ _).mono (by simp [footprint]))⟩

/-- Settles O42: an instruction has one next state, the one whose frame is its footprint. -/
theorem everyInstructionKeepsToItsFootprint : Obligations.EveryInstructionKeepsToItsFootprint := by
  intro i s t hwf hok h
  obtain ⟨u, hu, hframe⟩ := exec_keeps_footprint i hwf hok
  cases hu.symm.trans h
  exact hframe

end Sys2Proof.Machine

/-! PROOF. What no instruction reads (10_state.md §3, §4 and §7, 44_random.md). A state laid over a background, which gives
its ST, ACC, count of draws and earlier events, behaves as before over that background: every operation commutes with
`State.over`. -/

namespace Sys2Proof.Machine

/-- The pieces that no instruction reads, the count of draws apart, which RND reads. -/
structure Background where
  st : Byte
  acc : Nat
  draws : Nat
  log : List DiagEvent

/-- `t` with the background's ST, ACC and count of draws, and its own events after the background's. -/
def State.over (t : State) (b : Background) : State :=
  { t with st := b.st, acc := b.acc, draws := b.draws, log := b.log ++ t.log }

/-- `s` with no event of its own yet. -/
def State.quiet (s : State) : State := { s with log := [] }

/-- Any state is its quiet form over a background, and so is any that differs from it in the background alone. -/
theorem State.quiet_over (s : State) (b : Background) :
    s.quiet.over b = { s with st := b.st, acc := b.acc, draws := b.draws, log := b.log } := by
  simp only [State.quiet, State.over, List.append_nil]

/-- The background a state is over. -/
def State.background (s : State) : Background := ⟨s.st, s.acc, s.draws, s.log⟩

theorem State.quiet_over_background (s : State) : s.quiet.over s.background = s := s.quiet_over s.background

/-! ### Every operation commutes with the background -/

section
variable (t : State) (b : Background)

theorem over_emit (e : DiagEvent) : (t.over b).emit e = (t.emit e).over b := by
  simp only [State.over, State.emit, List.append_assoc]

theorem read8_over (a : Word) : read8 a (t.over b) = ((read8 a t).1, (read8 a t).2.over b) := by
  simp only [read8, over_emit]
  split <;> rfl

theorem read16_over (a : Word) : read16 a (t.over b) = ((read16 a t).1, (read16 a t).2.over b) := by
  simp only [read16, over_emit]
  split <;> rfl

theorem write8_over (a : Word) (v : Byte) : (write8 a v (t.over b)).2 = (write8 a v t).2.over b := by
  simp only [write8, over_emit]
  split <;> rfl

theorem write16_over (a v : Word) : (write16 a v (t.over b)).2 = (write16 a v t).2.over b := by
  simp only [write16, over_emit]
  split <;> rfl

theorem push_over (v : Word) : push v (t.over b) = (push v t).map (·.over b) := by
  have hwrite := write16_over (t.setSp (t.sp + 2)) b (stackAddr (t.sp + 2)) v
  have hsp : (t.over b).sp = t.sp := rfl
  simp only [push, hsp]
  split
  · rfl
  · exact congrArg some hwrite

theorem pop_over : pop (t.over b) = (pop t).map fun p => (p.1, p.2.over b) := by
  have hread := read16_over t b (stackAddr t.sp)
  have hsp : (t.over b).sp = t.sp := rfl
  simp only [pop, hsp, hread]
  split <;> rfl

theorem clearDisplay_over : clearDisplay (t.over b) = (clearDisplay t).over b := by
  simp only [clearDisplay, State.setBytes, State.over]

theorem skipIf_over (test : Bool) : skipIf test (t.over b) = (skipIf test t).over b := by
  cases test <;> rfl

theorem drawRow_over (xc yc : Byte) (addr : Word) (r : Nat) (d : Bool × State) :
    drawRow xc yc addr r (d.1, d.2.over b) =
      ((drawRow xc yc addr r d).1, (drawRow xc yc addr r d).2.over b) := by
  simp only [drawRow, read8_over]
  rfl

theorem drawSprite_over (xc yc : Byte) (addr : Word) (n : Nat) :
    drawSprite xc yc addr n (t.over b) =
      ((drawSprite xc yc addr n t).1, (drawSprite xc yc addr n t).2.over b) := by
  induction n with
  | zero => rfl
  | succ r ih => rw [drawSprite_succ, ih, drawRow_over, drawSprite_succ]

theorem storeRegs_over (base : Word) (n : Nat) : storeRegs base n (t.over b) = (storeRegs base n t).over b := by
  induction n with
  | zero => rfl
  | succ k ih =>
    rw [storeRegs_succ, ih, write8_over, storeRegs_succ]
    rfl

theorem loadRegs_over (base : Word) (n : Nat) : loadRegs base n (t.over b) = (loadRegs base n t).over b := by
  induction n with
  | zero => rfl
  | succ k ih =>
    rw [loadRegs_succ, ih, read8_over, loadRegs_succ]
    rfl

theorem bcdStored_over (base : Word) (v : Byte) : bcdStored base v (t.over b) = (bcdStored base v t).over b := by
  simp only [bcdStored, write8_over]

end

/-! ### Every instruction commutes with it -/

/-- The case split of the 34: an operation on the pieces outside the background, or one that commutes with it. -/
theorem exec_over {i : Instr} (hrnd : ∀ x kk, i ≠ .rnd x kk) (hst : ∀ x, i ≠ .ldToSt x) {t u : State}
    (h : exec i t = .next u) (b : Background) : exec i (t.over b) = .next (u.over b) := by
  cases i with
  | rnd x kk => exact absurd rfl (hrnd x kk)
  | ldToSt x => exact absurd rfl (hst x)
  | cls ign => cases h; exact congrArg Host.Outcome.next (clearDisplay_over t b)
  | seImm | sneImm | seReg | sneReg | skp | sknp => cases h; exact congrArg Host.Outcome.next (skipIf_over t b _)
  | ret ign =>
    have hpop := pop_over t b
    cases hp : pop t with
    | none =>
      rw [hp] at hpop
      cases (exec_ret_of_underrun hp ign).symm.trans h
      exact exec_ret_of_underrun hpop ign
    | some p =>
      rw [hp] at hpop
      cases (exec_ret_of_pop hp ign).symm.trans h
      exact exec_ret_of_pop hpop ign
  | call nnn =>
    have hpush := push_over t b t.pc
    cases hp : push t.pc t with
    | none =>
      rw [hp] at hpush
      cases (exec_call_of_overflow hp nnn).symm.trans h
      exact exec_call_of_overflow hpush nnn
    | some p =>
      rw [hp] at hpush
      cases (exec_call_of_push hp nnn).symm.trans h
      exact exec_call_of_push hpush nnn
  | jp nnn =>
    cases h
    have haddr : (t.over b).fetchAddr = t.fetchAddr := rfl
    rw [exec_jp, haddr]
    split <;> rfl
  | drw x y n =>
    cases h
    have hdraw := drawSprite_over t b (t.getV x) (t.getV y) t.i n.toNat
    exact congrArg (fun d => Host.Outcome.next (d.2.setV regF (flagByte d.1))) hdraw
  | ldBcd x => cases h; exact congrArg Host.Outcome.next (bcdStored_over t b t.i (t.getV x))
  | ldStore x =>
    cases h
    exact congrArg (fun u => Host.Outcome.next (State.setI u (indexAfterBulk x t))) (storeRegs_over t b t.i _)
  | ldLoad x =>
    cases h
    exact congrArg (fun u => Host.Outcome.next (State.setI u (indexAfterBulk x t))) (loadRegs_over t b t.i _)
  | _ => cases h; rfl

/-- So the effect of an instruction is found on the quiet state, and holds over every background. -/
theorem exec_over_quiet {i : Instr} (hrnd : ∀ x kk, i ≠ .rnd x kk) (hst : ∀ x, i ≠ .ldToSt x) (s : State) :
    ∃ u : State, ∀ b, exec i (s.quiet.over b) = .next (u.over b) := by
  obtain ⟨u, hu⟩ := exec_answers_next i s.quiet
  exact ⟨u, exec_over hrnd hst hu⟩

/-! ### The statements -/

/-- Settles O43: LD ST and RND write no event and read none of the three; every other instruction has its effect over
both backgrounds, the new events being those on the quiet state. -/
theorem soundAccumulatorAndLogAreUnread : Obligations.SoundAccumulatorAndLogAreUnread := by
  intro i s t st' acc' log' h
  by_cases hst : ∃ x, i = .ldToSt x
  · obtain ⟨x, rfl⟩ := hst
    cases h
    exact ⟨[], (List.append_nil _).symm, rfl, by rw [List.append_nil]; rfl⟩
  by_cases hrnd : ∃ x kk, i = .rnd x kk
  · obtain ⟨x, kk, rfl⟩ := hrnd
    cases h
    exact ⟨[], (List.append_nil _).symm, rfl, by rw [List.append_nil]; rfl⟩
  · push Not at hst hrnd
    obtain ⟨u, hu⟩ := exec_over_quiet hrnd hst s
    have hs := hu s.background
    rw [s.quiet_over_background, h] at hs
    cases hs
    refine ⟨u.log, rfl, rfl, ?_⟩
    have hother := hu ⟨st', acc', s.draws, log'⟩
    rw [s.quiet_over] at hother
    cases i with
    | ldToSt x => exact absurd rfl (hst x)
    | _ => exact hother

/-- Settles O44: LD ST copies a register, and every other instruction has its effect over every background. -/
theorem onlyRandomReadsTheDraws : Obligations.OnlyRandomReadsTheDraws := by
  intro i s t d hrnd h
  by_cases hst : ∃ x, i = .ldToSt x
  · obtain ⟨x, rfl⟩ := hst
    cases h
    exact ⟨rfl, rfl⟩
  · push Not at hst
    obtain ⟨u, hu⟩ := exec_over_quiet hrnd hst s
    have hs := hu s.background
    rw [s.quiet_over_background, h] at hs
    cases hs
    have hother := hu ⟨s.st, s.acc, d, s.log⟩
    rw [s.quiet_over] at hother
    exact ⟨rfl, hother⟩

end Sys2Proof.Machine

/-! PROOF. The instruction cycle (40_control_flow.md §1) and its halts (60_exceptions.md §1 and §2): what an instruction can
do to the run state and to the pieces that are not its own, the four cases of a step, and the statements of this family. -/

namespace Sys2Proof.Machine

/-! ### What an instruction can do, whatever the state -/

/-- The pieces that only LD DT, LD ST and the host's transactions write are the same, and no event is lost. -/
structure Kept (s t : State) : Prop where
  dt : t.dt = s.dt
  st : t.st = s.st
  held : t.held = s.held
  acc : t.acc = s.acc
  quirkShiftSingle : t.quirkShiftSingle = s.quirkShiftSingle
  quirkLdstNoInc : t.quirkLdstNoInc = s.quirkLdstNoInc
  font : t.font = s.font
  log : ∃ events, t.log = s.log ++ events

/-- The five ways an instruction can end. -/
inductive ExecOutcome (i : Instr) (s t : State) : Prop where
  | writes (kept : Kept s t) (run : t.run = s.run)
  | pauses (kept : Kept s t) (run : ∀ r, t.run ≠ .halted r)
  | halts (kind : FatalKind) (isStackFault : kind ≠ .unknownOpcode) (eq : t = raiseFatal kind (encode i) s)
  | loadsDelay (x : Nibble) (instr : i = .ldToDt x) (eq : t = s.setDt (s.getV x))
  | loadsSound (x : Nibble) (instr : i = .ldToSt x) (eq : t = s.setSt (s.getV x))

/-- A write of the other pieces, with new events. -/
theorem Kept.of_writes {s : State} {v : Vector Byte 16} {i pc : Word} {sp : Byte} {mem : Memory} {run : RunState}
    {events : List DiagEvent} {draws : Nat} :
    Kept s { s with v := v, i := i, pc := pc, sp := sp, mem := mem, run := run, log := s.log ++ events, draws := draws } :=
  ⟨rfl, rfl, rfl, rfl, rfl, rfl, rfl, _, rfl⟩

/-- A write of the other pieces, with no new event. -/
theorem Kept.of_quiet_writes {s : State} {v : Vector Byte 16} {i pc : Word} {sp : Byte} {mem : Memory} {run : RunState}
    {draws : Nat} :
    Kept s { s with v := v, i := i, pc := pc, sp := sp, mem := mem, run := run, draws := draws } :=
  ⟨rfl, rfl, rfl, rfl, rfl, rfl, rfl, [], (List.append_nil _).symm⟩

theorem ExecOutcome.skipIf (i : Instr) (test : Bool) (s : State) : ExecOutcome i s (skipIf test s) := by
  cases test
  · exact .writes .of_quiet_writes rfl
  · exact .writes .of_quiet_writes rfl

theorem bcdStored_shape (base : Word) (v : Byte) (s : State) :
    ∃ m l, bcdStored base v s = { s with mem := m, log := s.log ++ l } := by
  obtain ⟨m0, l0, e0⟩ := write8_shape (offsetAddr base 0) (hundreds v) s
  obtain ⟨m1, l1, e1⟩ := write8_shape (offsetAddr base 1) (tens v) (write8 (offsetAddr base 0) (hundreds v) s).2
  obtain ⟨m2, l2, e2⟩ := write8_shape (offsetAddr base 2) (ones v)
    (write8 (offsetAddr base 1) (tens v) (write8 (offsetAddr base 0) (hundreds v) s).2).2
  exact ⟨m2, l0 ++ (l1 ++ l2), by rw [bcdStored, e2, e1, e0]; simp only [List.append_assoc]⟩

/-- The case split of the 34: what each can write in any state, from the shape of the operation it is. -/
theorem exec_outcome {i : Instr} {s t : State} (h : exec i s = .next t) : ExecOutcome i s t := by
  cases i with
  | ldToDt x => cases h; exact .loadsDelay x rfl rfl
  | ldToSt x => cases h; exact .loadsSound x rfl rfl
  | ldKey x => cases h; exact .pauses .of_quiet_writes (by simp)
  | jp nnn =>
    rw [exec_jp] at h
    split at h
    · cases h; exact .pauses .of_quiet_writes (by simp)
    · cases h; exact .writes .of_quiet_writes rfl
  | ret ign =>
    obtain hpop | ⟨w, l, hpop⟩ := pop_shape s
    · cases (exec_ret_of_underrun hpop ign).symm.trans h
      exact .halts .stackUnderrun (by simp) rfl
    · cases (exec_ret_of_pop hpop ign).symm.trans h
      exact .writes .of_writes rfl
  | call nnn =>
    obtain hpush | ⟨m, l, hpush⟩ := push_shape s.pc s
    · cases (exec_call_of_overflow hpush nnn).symm.trans h
      exact .halts .stackOverflow (by simp) rfl
    · cases (exec_call_of_push hpush nnn).symm.trans h
      exact .writes .of_writes rfl
  | cls ign =>
    obtain ⟨m, e⟩ := clearDisplay_shape s
    rw [exec_cls, e] at h
    cases h
    exact .writes .of_quiet_writes rfl
  | drw x y n =>
    obtain ⟨m, l, e⟩ := drawSprite_shape (s.getV x) (s.getV y) s.i n.toNat s
    rw [exec_drw, e] at h
    cases h
    exact .writes .of_writes rfl
  | ldBcd x =>
    obtain ⟨m, l, e⟩ := bcdStored_shape s.i (s.getV x) s
    rw [exec_ldBcd, e] at h
    cases h
    exact .writes .of_writes rfl
  | ldStore x =>
    obtain ⟨m, l, e⟩ := storeRegs_shape s.i (x.toNat + 1) s
    rw [exec_ldStore, e] at h
    cases h
    exact .writes .of_writes rfl
  | ldLoad x =>
    obtain ⟨v, l, e⟩ := loadRegs_shape s.i (x.toNat + 1) s
    rw [exec_ldLoad, e] at h
    cases h
    exact .writes .of_writes rfl
  | seImm | sneImm | seReg | sneReg | skp | sknp => cases h; exact .skipIf _ _ s
  | _ => cases h; exact .writes .of_quiet_writes rfl

/-! ### The four cases of a step (R100) -/

section
variable {s : State}

theorem step_of_not_running (h : s.run ≠ .running) : step s = .next s := by
  cases hrun : s.run with
  | running => exact absurd hrun h
  | pausedOnSelfJump | pausedOnKeyWait | halted => simp only [step, hrun]

theorem step_of_decoded (hrun : s.run = .running) (hp : permitted16 s.pc = true) {i : Instr}
    (hd : decode (slotWord s s.pc.toNat) = some i) : step s = exec i (s.setPc (s.pc + 2)) := by
  simp only [step, hrun, fetch_of_permitted hp, hd]

theorem step_of_unknown (hrun : s.run = .running) (hp : permitted16 s.pc = true)
    (hd : decode (slotWord s s.pc.toNat) = none) :
    step s = .next (raiseFatal .unknownOpcode (slotWord s s.pc.toNat) (s.setPc (s.pc + 2))) := by
  simp only [step, hrun, fetch_of_permitted hp, hd]

/-- A refused fetch gives the sentinel, which is Unknown. -/
theorem step_of_refused_fetch (hrun : s.run = .running) (hp : permitted16 s.pc = false) :
    step s = .next (raiseFatal .unknownOpcode 0xFFFF ((s.emit ⟨.read, .bits16, s.pc⟩).setPc (s.pc + 2))) := by
  simp only [step, hrun, fetch_of_refused hp, decode_sentinel]

end

/-- What the next state of a step is. -/
inductive StepOutcome (s t : State) : Prop where
  | idle (run : s.run ≠ .running) (eq : t = s)
  | executes (run : s.run = .running) (fetchable : permitted16 s.pc = true) (i : Instr)
      (word : decode (slotWord s s.pc.toNat) = some i) (eq : exec i (s.setPc (s.pc + 2)) = .next t)
  | unknown (run : s.run = .running) (fetchable : permitted16 s.pc = true)
      (word : decode (slotWord s s.pc.toNat) = none)
      (eq : t = raiseFatal .unknownOpcode (slotWord s s.pc.toNat) (s.setPc (s.pc + 2)))
  | refused (run : s.run = .running) (unfetchable : permitted16 s.pc = false)
      (eq : t = raiseFatal .unknownOpcode 0xFFFF ((s.emit ⟨.read, .bits16, s.pc⟩).setPc (s.pc + 2)))

theorem step_outcome {s t : State} (h : step s = .next t) : StepOutcome s t := by
  by_cases hrun : s.run = .running
  · by_cases hp : permitted16 s.pc = true
    · cases hd : decode (slotWord s s.pc.toNat) with
      | some i => exact .executes hrun hp i hd ((step_of_decoded hrun hp hd).symm.trans h)
      | none =>
        cases (step_of_unknown hrun hp hd).symm.trans h
        exact .unknown hrun hp hd rfl
    · have hp := Bool.eq_false_iff.2 hp
      cases (step_of_refused_fetch hrun hp).symm.trans h
      exact .refused hrun hp rfl
  · cases (step_of_not_running hrun).symm.trans h
    exact .idle hrun rfl

/-! ### The statements about one step -/

/-- Inside an instruction the fetch address is where the step fetched (log entry 6). -/
theorem raiseFatal_advanced (kind : FatalKind) (w : Word) (s : State) :
    raiseFatal kind w (s.setPc (s.pc + 2)) = { s with pc := s.pc + 2, run := .halted ⟨kind, s.pc, w⟩ } := by
  rw [raiseFatal, fetchAddr_of_pc (State.setPc_pc s (s.pc + 2))]
  rfl

/-- Settles O12: it is the permitted fetch of a word that decodes. -/
theorem stepRunsDecodedInstruction : Obligations.StepRunsDecodedInstruction :=
  fun _ _ hrun hp hd => step_of_decoded hrun hp hd

/-- Settles O13: the refused fetch, and the permitted fetch of a word that does not decode. -/
theorem unknownWordHalts : Obligations.UnknownWordHalts := by
  intro s hrun
  constructor
  · intro hp
    rw [step_of_refused_fetch hrun hp]
    exact congrArg _ (raiseFatal_advanced .unknownOpcode 0xFFFF (s.emit ⟨.read, .bits16, s.pc⟩))
  · intro hp hd
    rw [step_of_unknown hrun hp hd, raiseFatal_advanced]
    rfl

/-- Settles O14: a step in a pause or in Halted is the identity, and the signal is read off the run state. -/
theorem pausedAndHaltedStepsDoNothing : Obligations.PausedAndHaltedStepsDoNothing := by
  intro s hrun
  refine ⟨step_of_not_running hrun, ?_⟩
  cases h : s.run with
  | running => exact absurd h hrun
  | pausedOnSelfJump | pausedOnKeyWait | halted => simp [State.signal, State.haltReport, State.isPaused, h]

/-- Settles O15: no instruction ends in a fault or a refusal, and nor does any other case of a step. -/
theorem stepAlwaysAnswersNext : Obligations.StepAlwaysAnswersNext := by
  intro s
  by_cases hrun : s.run = .running
  · by_cases hp : permitted16 s.pc = true
    · cases hd : decode (slotWord s s.pc.toNat) with
      | some i =>
        rw [step_of_decoded hrun hp hd]
        exact exec_answers_next i _
      | none => exact ⟨_, step_of_unknown hrun hp hd⟩
    · exact ⟨_, step_of_refused_fetch hrun (Bool.eq_false_iff.2 hp)⟩
  · exact ⟨_, step_of_not_running hrun⟩

/-! ### Halts are precise (60_exceptions.md §2) -/

theorem changesOnly_halt (kind : FatalKind) (w : Word) (s : State) :
    ChangesOnly [.pc, .run, .log] s (raiseFatal kind w (s.setPc (s.pc + 2))) :=
  ((changesOnly_setPc s _).mono (by simp)).trans ((changesOnly_raiseFatal _ kind w).mono (by simp))

/-- A running instruction that halts is a stack fault. -/
theorem exec_halts {i : Instr} {s t : State} {r : HaltReport} (h : exec i s = .next t) (hrun : s.run = .running)
    (hhalt : t.run = .halted r) : ∃ kind, kind ≠ .unknownOpcode ∧ t = raiseFatal kind (encode i) s := by
  cases exec_outcome h with
  | writes _ run => rw [run, hrun] at hhalt; cases hhalt
  | pauses _ run => exact absurd hhalt (run r)
  | halts kind isStackFault eq => exact ⟨kind, isStackFault, eq⟩
  | loadsDelay x _ eq => rw [eq, State.setDt_run, hrun] at hhalt; cases hhalt
  | loadsSound x _ eq => rw [eq, State.setSt_run, hrun] at hhalt; cases hhalt

/-- Settles O16: of the four cases of a step three can halt: a stack fault, whose word decodes, and the two Unknown ones,
whose word does not. -/
theorem haltIsPrecise : Obligations.HaltIsPrecise := by
  intro s t r hrun hstep hhalt
  cases step_outcome hstep with
  | idle run _ => exact absurd hrun run
  | executes _ fetchable i word eq =>
    obtain ⟨kind, hkind, rfl⟩ := exec_halts eq hrun hhalt
    rw [raiseFatal_advanced, decodedWordIsEncoded _ _ word] at hhalt
    cases hhalt
    rw [read16_of_permitted fetchable, if_pos fetchable, List.append_nil]
    exact ⟨changesOnly_halt _ _ s, rfl, rfl, rfl, rfl, iff_of_false hkind (by simp [word])⟩
  | unknown _ fetchable word eq =>
    rw [eq, raiseFatal_advanced] at hhalt
    cases hhalt
    rw [eq, read16_of_permitted fetchable, if_pos fetchable, List.append_nil]
    exact ⟨changesOnly_halt _ _ s, rfl, rfl, rfl, rfl, iff_of_true rfl word⟩
  | refused _ unfetchable eq =>
    have hemit := raiseFatal_advanced .unknownOpcode 0xFFFF (s.emit ⟨.read, .bits16, s.pc⟩)
    rw [State.emit_pc] at hemit
    rw [eq, hemit] at hhalt
    cases hhalt
    rw [eq, read16_of_refused (Bool.not_eq_true _ ▸ unfetchable), unfetchable, if_neg Bool.false_ne_true]
    exact ⟨((changesOnly_emit s _).mono (by simp)).trans (changesOnly_halt _ _ (s.emit _)), rfl, rfl, rfl, rfl,
      iff_of_true rfl decode_sentinel⟩

/-! ### The stack faults from the step -/

theorem decode_of_callOp {w : Word} (h : w.toNat / 4096 = 0x2) : decode w = some (.call (fieldNnn w)) := by
  rw [← toNat_fieldOp] at h
  simp only [decode, h]

theorem decode_of_retOp {w : Word} (hop : w.toNat / 4096 = 0x0) (hkk : w.toNat % 256 = 0xEE) :
    decode w = some (.ret (fieldX w)) := by
  rw [← toNat_fieldOp] at hop
  rw [← toNat_fieldKk] at hkk
  have hkk : fieldKk w = 0xEE := BitVec.eq_of_toNat_eq hkk
  simp [decode, hop, decodeOp0, hkk]

/-- Settles O22: the word decodes to CALL or RET, the stack engine gives nothing, and encoding the instruction gives the
word back, ignored bits included. -/
theorem stackFaultsReportTheFetchedWord : Obligations.StackFaultsReportTheFetchedWord := by
  intro s hrun hp w
  constructor
  · intro hop hfull
    have hd := decode_of_callOp hop
    have hword := decodedWordIsEncoded _ _ hd
    rw [step_of_decoded hrun hp hd, exec_call_of_full (s := s.setPc (s.pc + 2)) hfull, hword, raiseFatal_advanced]
  · intro hop hkk hempty
    have hd := decode_of_retOp hop hkk
    have hword := decodedWordIsEncoded _ _ hd
    rw [step_of_decoded hrun hp hd, exec_ret_of_empty (s := s.setPc (s.pc + 2)) hempty, hword, raiseFatal_advanced]

end Sys2Proof.Machine

/-! PROOF. Power-on, the load of a program and `reset()` (10_state.md §8, 70_reset_and_hazards.md): what a run of stored
bytes reads as, and the statements of this family. -/

namespace Sys2Proof.Machine

/-! ### A run of stored bytes -/

section
variable {s : State} (h : memWf s.mem = true) (base : Nat) (bs : List Byte)
include h

theorem byteAt_setBytes_inside {k : Nat} (hk : k < bs.length) : (s.setBytes base bs).byteAt (base + k) = bs[k] := by
  rw [State.byteAt_setBytes h, if_pos (by omega), Nat.add_sub_cancel_left, List.getD_eq_getElem _ _ hk]

theorem byteAt_setBytes_outside {a : Nat} (ha : a < base ∨ base + bs.length ≤ a) :
    (s.setBytes base bs).byteAt a = s.byteAt a := by
  rw [State.byteAt_setBytes h, if_neg (by omega)]

end

/-! ### loadProgram (R273) -/

theorem loadProgram_of_fits {bytes : List Byte} (h : bytes.length ≤ 3583) (s : State) :
    loadProgram bytes s = .next (s.setBytes programBase bytes) := if_pos (decide_eq_true h)

theorem loadProgram_of_too_long {bytes : List Byte} (h : ¬ bytes.length ≤ 3583) (s : State) :
    loadProgram bytes s = .fault .resourceLoadFailure := if_neg (by rw [imageFits, decide_eq_true_eq]; exact h)

/-- Settles O46: an image that fits is one run of stored bytes at 0x200. -/
theorem loadProgramCopiesTheImage : Obligations.LoadProgramCopiesTheImage := by
  intro s bytes hwf
  split
  · next hfits =>
    exact ⟨_, loadProgram_of_fits hfits s, fun k hk => byteAt_setBytes_inside hwf programBase bytes hk,
      changesOnly_setBytes hwf programBase bytes⟩
  · next hlong => exact loadProgram_of_too_long hlong s

/-! ### Power-on (R46) -/

section
variable (q1 q2 : Bool) (font : Vector Byte 80)

/-- The state whose font region power-on fills: nothing is listed in its memory. -/
def unfilled : State := { State.reset with quirkShiftSingle := q1, quirkLdstNoInc := q2, font := font }

theorem powerOn_eq : State.powerOn q1 q2 font = (unfilled q1 q2 font).setBytes fontBase font.toList := rfl

theorem memWf_unfilled : memWf (unfilled q1 q2 font).mem = true := rfl

theorem byteAt_unfilled (a : Nat) : (unfilled q1 q2 font).byteAt a = blankByte a := rfl

theorem byteAt_powerOn_font {k : Nat} (hk : k < 80) : (State.powerOn q1 q2 font).byteAt (0x090 + k) = font[k] := by
  rw [powerOn_eq, byteAt_setBytes_inside (memWf_unfilled q1 q2 font) fontBase font.toList (by simpa using hk),
    Vector.getElem_toList]

theorem byteAt_powerOn_outside {a : Nat} (ha : a < 0x090 ∨ 0x0E0 ≤ a) :
    (State.powerOn q1 q2 font).byteAt a = blankByte a := by
  rw [powerOn_eq, byteAt_setBytes_outside (memWf_unfilled q1 q2 font) fontBase font.toList (by simpa using ha),
    byteAt_unfilled]

theorem memWf_powerOn : memWf (State.powerOn q1 q2 font).mem = true :=
  State.memWf_setBytes (memWf_unfilled q1 q2 font) fontBase font.toList

theorem getV_powerOn (x : Nibble) : (State.powerOn q1 q2 font).getV x = 0x00 := by
  rw [powerOn_eq, State.setBytes_getV]
  exact Vector.getElem_replicate _

end

/-- The default FONT covers the font region and no more. -/
theorem blankByte_of_ge {a : Nat} (ha : 0x0E0 ≤ a) : blankByte a = 0x00 := by
  rw [blankByte, if_pos (by omega), List.getD_eq_default _ _ (by rw [Vector.length_toList]; omega)]

theorem blankByte_font {k : Nat} (hk : k < 80) : blankByte (0x090 + k) = Config.defaultFont[k] := by
  rw [blankByte, if_pos (by omega), Nat.add_sub_cancel_left, List.getD_eq_getElem _ _ (by simpa using hk),
    Vector.getElem_toList]

theorem byteAt_powerOn_of_ge (q1 q2 : Bool) (font : Vector Byte 80) {a : Nat} (ha : 0x0E0 ≤ a) :
    (State.powerOn q1 q2 font).byteAt a = 0x00 := by
  rw [byteAt_powerOn_outside q1 q2 font (.inr ha), blankByte_of_ge ha]

/-- Filling the font region with what it already reads as lists nothing: both memories are in canonical form. -/
theorem mem_powerOn_default : (State.powerOn false false Config.defaultFont).mem = [] := by
  refine mem_ext (memWf_powerOn false false Config.defaultFont) memWf_reset fun a => ?_
  by_cases ha : 0x090 ≤ a ∧ a < 0x0E0
  · obtain ⟨k, rfl⟩ := Nat.exists_eq_add_of_le ha.1
    have hk : k < 80 := by omega
    exact (byteAt_powerOn_font false false Config.defaultFont hk).trans (blankByte_font hk).symm
  · exact byteAt_powerOn_outside false false Config.defaultFont (by omega)

theorem powerOn_default : State.powerOn false false Config.defaultFont = State.reset := by
  have hmem : ∀ {m : Memory}, m = [] → ({ State.reset with mem := m } : State) = State.reset := by
    rintro m rfl
    rfl
  exact hmem mem_powerOn_default

/-- Settles O45: power-on is the empty memory's state with FONT stored in the font region. -/
theorem powerOnState : Obligations.PowerOnState := by
  refine ⟨fun q1 q2 font => ?_, powerOn_default⟩
  exact ⟨getV_powerOn q1 q2 font, rfl, rfl, rfl, rfl, rfl, fun k hk => byteAt_powerOn_font q1 q2 font hk,
    fun a ha => byteAt_powerOn_of_ge q1 q2 font ha, rfl, rfl, rfl, rfl, rfl, rfl, rfl⟩

/-- Settles O48: the word at 0x200 is 0x0000, which is Unknown. -/
theorem nothingLoadedHaltsAtTheEntry : Obligations.NothingLoadedHaltsAtTheEntry := by
  intro q1 q2 font s
  have hpc : s.pc = 0x0200 := rfl
  have hp : permitted16 s.pc = true := by rw [hpc]; decide
  have hword : slotWord s s.pc.toNat = 0x0000 := by
    have hhi : s.byteAt 0x0200 = 0x00 := byteAt_powerOn_of_ge q1 q2 font (by decide)
    have hlo : s.byteAt 0x0201 = 0x00 := byteAt_powerOn_of_ge q1 q2 font (by decide)
    have hslot : slotWord s s.pc.toNat = wordOfBytes (s.byteAt 0x0200) (s.byteAt 0x0201) := rfl
    rw [hslot, hhi, hlo]
    rfl
  have hd : decode (slotWord s s.pc.toNat) = none := by rw [hword]; decide
  rw [step_of_unknown rfl hp hd, raiseFatal_advanced, hword, hpc]
  rfl

/-! ### reset() (R270) -/

/-- The memory of reset(): the display cleared, then FONT stored in the font region. -/
def resetMemory (s : State) : State := (clearDisplay s).setBytes fontBase s.font.toList

/-- The registers of reset(). -/
def resetRegisters (s : State) : State :=
  (((((s.setPc 0x0200).setSp 0xE0).setDt 0x00).setSt 0x00).setAcc 0).setRun .running

theorem resetBlock_eq (s : State) : resetBlock s = resetRegisters (resetMemory s) := by
  rw [resetBlock, resetRegisters, resetMemory]

/-- Whatever the state, reset() writes memory and the registers above alone. -/
theorem resetBlock_shape (s : State) : ∃ m, resetBlock s = resetRegisters { s with mem := m } := by
  obtain ⟨m, e⟩ := clearDisplay_shape s
  rw [resetBlock_eq, resetMemory, e]
  exact ⟨_, rfl⟩

theorem byteAt_resetRegisters (s : State) (a : Nat) : (resetRegisters s).byteAt a = s.byteAt a := rfl

theorem changesOnly_resetRegisters (s : State) :
    ChangesOnly [.pc, .sp, .dt, .st, .acc, .run] s (resetRegisters s) := by
  intro c hc
  cases c with
  | pc | sp | dt | st | acc | run => simp at hc
  | v | i | mem | held | quirkShiftSingle | quirkLdstNoInc | font | log | draws => rfl

section
variable {s : State} (h : memWf s.mem = true)
include h

theorem byteAt_resetMemory_font {k : Nat} (hk : k < 80) : (resetMemory s).byteAt (0x090 + k) = s.font[k] := by
  rw [resetMemory, byteAt_setBytes_inside (memWf_clearDisplay h) fontBase s.font.toList (by simpa using hk),
    Vector.getElem_toList]

theorem byteAt_resetMemory_display {a : Nat} (hlo : 0x100 ≤ a) (hhi : a ≤ 0x1FF) : (resetMemory s).byteAt a = 0x00 := by
  have hfont : fontBase + s.font.toList.length = 0x0E0 := by rw [Vector.length_toList]
  rw [resetMemory, byteAt_setBytes_outside (memWf_clearDisplay h) _ _ (by omega),
    byteAt_clearDisplay_of_display h hlo hhi]

theorem changesOnly_resetMemory : ChangesOnly (bytesFrom 0x090 80 ++ bytesFrom 0x100 256) s (resetMemory s) := by
  have hclear := changesOnly_clearDisplay h
  have hfont := changesOnly_setBytes (memWf_clearDisplay h) fontBase s.font.toList
  rw [Vector.length_toList] at hfont
  exact (hclear.mono (by simp +contextual)).trans (hfont.mono (by simp +contextual))

theorem changesOnly_resetBlock :
    ChangesOnly ([.pc, .sp, .dt, .st, .acc, .run] ++ bytesFrom 0x090 80 ++ bytesFrom 0x100 256) s (resetBlock s) := by
  rw [resetBlock_eq, List.append_assoc]
  exact ((changesOnly_resetMemory h).mono fun _ hc => List.mem_append_right _ hc).trans
    ((changesOnly_resetRegisters _).mono fun _ hc => List.mem_append_left _ hc)

end

/-- Settles O47: two runs of stored bytes in disjoint regions, then the six writes of registers. -/
theorem resetTransaction : Obligations.ResetTransaction := by
  intro s hwf t
  have ht : t = resetRegisters (resetMemory s) := resetBlock_eq s
  refine ⟨fun a hlo hhi => ?_, fun k hk => ?_, rfl, rfl, rfl, rfl, rfl, rfl, changesOnly_resetBlock hwf⟩
  · rw [ht, byteAt_resetRegisters, byteAt_resetMemory_display hwf hlo hhi]
  · rw [ht, byteAt_resetRegisters, byteAt_resetMemory_font hwf hk]

end Sys2Proof.Machine

/-! PROOF. The timers (60_exceptions.md §5) and the key events (60_exceptions.md §3, 46_input.md). -/

namespace Sys2Proof.Machine

/-! ### One tick (R250) -/

theorem framesElapsed_eq (ms : Nat) (s : State) : framesElapsed ms s = (s.acc + 60 * ms) / 1000 := rfl

theorem tick_eq (ms : Nat) (s : State) :
    tick ms s = { s with
      dt := countDown s.dt (framesElapsed ms s)
      st := countDown s.st (framesElapsed ms s)
      acc := (s.acc + 60 * ms) % 1000 } := rfl

theorem toNat_countDown (t : Byte) (k : Nat) : (countDown t k).toNat = t.toNat - k := by
  have := t.isLt
  rw [countDown, BitVec.toNat_ofNat]
  omega

theorem changesOnly_tick (ms : Nat) (s : State) : ChangesOnly [.dt, .st, .acc] s (tick ms s) :=
  (((changesOnly_setDt s _).mono (by simp)).trans ((changesOnly_setSt _ _).mono (by simp))).trans
    ((changesOnly_setAcc _ _).mono (by simp))

/-- Settles O49: a tick is three writes, of the two countdowns and the remainder. -/
theorem tickCountsDown : Obligations.TickCountsDown := by
  intro s ms k
  exact ⟨toNat_countDown s.dt k, toNat_countDown s.st k, rfl, changesOnly_tick ms s⟩

/-! ### Runs of ticks -/

theorem toNat_timers_foldl_tick (mss : List Nat) (s : State) :
    (mss.foldl (fun u ms => tick ms u) s).dt.toNat ≤ s.dt.toNat ∧
      (mss.foldl (fun u ms => tick ms u) s).st.toNat ≤ s.st.toNat := by
  induction mss generalizing s with
  | nil => exact ⟨Nat.le_refl _, Nat.le_refl _⟩
  | cons ms mss ih =>
    obtain ⟨hdt, hst⟩ := ih (tick ms s)
    have hdt' : (tick ms s).dt.toNat ≤ s.dt.toNat := (toNat_countDown s.dt _).trans_le (Nat.sub_le _ _)
    have hst' : (tick ms s).st.toNat ≤ s.st.toNat := (toNat_countDown s.st _).trans_le (Nat.sub_le _ _)
    exact ⟨hdt.trans hdt', hst.trans hst'⟩

theorem eq_zero_of_toNat_le {a b : Byte} (h : a.toNat ≤ b.toNat) (hb : b = 0) : a = 0 := by
  subst hb
  exact BitVec.eq_of_toNat_eq (Nat.le_zero.1 h)

/-- Settles O51: no countdown rises, and a timer not above 0 is 0. -/
theorem ticksNeverRaiseATimer : Obligations.TicksNeverRaiseATimer := by
  intro s mss t
  obtain ⟨hdt, hst⟩ := toNat_timers_foldl_tick mss s
  exact ⟨BitVec.le_def.2 hdt, BitVec.le_def.2 hst, eq_zero_of_toNat_le hdt, eq_zero_of_toNat_le hst⟩

theorem countDown_countDown (t : Byte) (j k : Nat) : countDown (countDown t j) k = countDown t (j + k) := by
  apply BitVec.eq_of_toNat_eq
  rw [toNat_countDown, toNat_countDown, toNat_countDown, Nat.sub_sub]

/-- The remainder a tick keeps is what the next one counts on from. -/
theorem framesElapsed_add (s : State) (m n : Nat) :
    framesElapsed m s + framesElapsed n (tick m s) = framesElapsed (m + n) s := by
  have hacc : (tick m s).acc = (s.acc + 60 * m) % 1000 := rfl
  rw [framesElapsed_eq, framesElapsed_eq, framesElapsed_eq, hacc]
  omega

/-- Settles O52: the countdowns add up, and so do the whole intervals and the remainders. -/
theorem ticksAddUp : Obligations.TicksAddUp := by
  intro s m n
  have hacc : ((s.acc + 60 * m) % 1000 + 60 * n) % 1000 = (s.acc + 60 * (m + n)) % 1000 := by omega
  rw [tick_eq n (tick m s), tick_eq (m + n) s, ← framesElapsed_add s m n, ← countDown_countDown, ← countDown_countDown,
    ← hacc]
  rfl

/-! ### Key events (R240–R242) -/

section
variable {k : Nat} (pressed : Bool) (s : State)

theorem deliverKeyEvent_of_lt (hk : k < 16) :
    deliverKeyEvent k pressed s = .next (wakeOnKey k pressed (s.setHeld (heldAfter k pressed s.held))) :=
  if_pos (decide_eq_true hk)

theorem deliverKeyEvent_of_not_lt (hk : ¬ k < 16) :
    deliverKeyEvent k pressed s = .refused (.keyOutsideContract k) :=
  if_neg (by rw [keyNumberOk, decide_eq_true_eq]; exact hk)

theorem getLsbD_heldAfter (hk : k < 16) {j : Nat} (hj : j < 16) (h : BitVec 16) :
    (heldAfter k pressed h).getLsbD j = if j = k then pressed else h.getLsbD j := by
  have hbit : (BitVec.twoPow 16 k).getLsbD j = decide (j = k) := by
    rw [BitVec.getLsbD_twoPow, decide_eq_true hk, Bool.true_and, decide_eq_decide]
    exact eq_comm
  cases pressed with
  | true =>
    rw [heldAfter, if_pos rfl, BitVec.getLsbD_or, hbit]
    by_cases hjk : j = k <;> simp [hjk]
  | false =>
    rw [heldAfter, if_neg Bool.false_ne_true, BitVec.getLsbD_and, BitVec.getLsbD_not, hbit]
    by_cases hjk : j = k <;> simp [hj, hjk]

end

section
variable {s : State} (k : Nat) (pressed : Bool)

theorem wakeOnKey_of_running (h : s.run = .running) : wakeOnKey k pressed s = s := by
  simp only [wakeOnKey, h]

theorem wakeOnKey_of_halted {r : HaltReport} (h : s.run = .halted r) : wakeOnKey k pressed s = s := by
  simp only [wakeOnKey, h]

theorem wakeOnKey_of_selfJump (h : s.run = .pausedOnSelfJump) : wakeOnKey k pressed s = s.setRun .running := by
  simp only [wakeOnKey, h]

theorem wakeOnKey_of_press {x : Nibble} (h : s.run = .pausedOnKeyWait x) :
    wakeOnKey k true s = (s.setV x (BitVec.ofNat 8 k)).setRun .running := by
  simp only [wakeOnKey, h, if_true]

theorem wakeOnKey_of_release {x : Nibble} (h : s.run = .pausedOnKeyWait x) : wakeOnKey k false s = s := by
  simp only [wakeOnKey, h, Bool.false_eq_true, if_false]

/-- Whatever the run state, waking writes the V registers and the run state alone. -/
theorem wakeOnKey_shape (s : State) : ∃ v run, wakeOnKey k pressed s = { s with v := v, run := run } := by
  cases h : s.run with
  | running => exact ⟨s.v, s.run, wakeOnKey_of_running k pressed h⟩
  | halted r => exact ⟨s.v, s.run, wakeOnKey_of_halted k pressed h⟩
  | pausedOnSelfJump => exact ⟨s.v, .running, wakeOnKey_of_selfJump k pressed h⟩
  | pausedOnKeyWait x =>
    cases pressed with
    | true => exact ⟨_, _, wakeOnKey_of_press k h⟩
    | false => exact ⟨s.v, s.run, wakeOnKey_of_release k h⟩

end

/-- An accepted key event writes the V registers, the run state and the held set alone. -/
theorem keyEvent_shape {k : Nat} {pressed : Bool} {s t : State} (h : deliverKeyEvent k pressed s = .next t) :
    ∃ v run held, t = { s with v := v, run := run, held := held } := by
  by_cases hk : k < 16
  · obtain ⟨v, run, e⟩ := wakeOnKey_shape k pressed (s.setHeld (heldAfter k pressed s.held))
    cases (deliverKeyEvent_of_lt pressed s hk).symm.trans h
    exact ⟨v, run, _, e⟩
  · cases (deliverKeyEvent_of_not_lt pressed s hk).symm.trans h

theorem wakeOnKey_held (k : Nat) (pressed : Bool) (s : State) : (wakeOnKey k pressed s).held = s.held := by
  obtain ⟨v, run, e⟩ := wakeOnKey_shape k pressed s
  rw [e]

/-- Settles O53: the held set takes the event's edge, and the run state selects what waking does. -/
theorem keyEventTable : Obligations.KeyEventTable := by
  intro s k pressed
  split
  · next hk =>
    refine ⟨_, deliverKeyEvent_of_lt pressed s hk, fun j hj => ?_, ?_⟩
    · rw [wakeOnKey_held]
      exact getLsbD_heldAfter pressed hk hj s.held
    have hheld := changesOnly_setHeld s (heldAfter k pressed s.held)
    have hrun : (s.setHeld (heldAfter k pressed s.held)).run = s.run := rfl
    generalize s.setHeld (heldAfter k pressed s.held) = u at hheld hrun ⊢
    cases h : s.run with
    | running => rw [wakeOnKey_of_running k pressed (hrun.trans h)]; exact hheld
    | halted r => rw [wakeOnKey_of_halted k pressed (hrun.trans h)]; exact hheld
    | pausedOnSelfJump =>
      rw [wakeOnKey_of_selfJump k pressed (hrun.trans h)]
      exact ⟨rfl, (hheld.mono (by simp)).trans ((changesOnly_setRun _ _).mono (by simp))⟩
    | pausedOnKeyWait x =>
      cases pressed with
      | true =>
        rw [wakeOnKey_of_press k (hrun.trans h)]
        exact ⟨rfl, State.getV_setV_same _ _ _, (hheld.mono (by simp)).trans
          (((changesOnly_setV _ x _).mono (by simp)).trans ((changesOnly_setRun _ _).mono (by simp)))⟩
      | false => rw [wakeOnKey_of_release k (hrun.trans h)]; exact hheld
  · next hk => exact deliverKeyEvent_of_not_lt pressed s hk

/-- Settles O37: the wait is a run state that a step and a tick leave, a release leaves and a press resolves. -/
theorem keyWaitIsResolvedByAPress : Obligations.KeyWaitIsResolvedByAPress := by
  intro s x k ms hk
  have hwait : ∀ h, ((s.setRun (.pausedOnKeyWait x)).setHeld h).run = .pausedOnKeyWait x := fun _ => rfl
  have hstep := step_of_not_running (s := s.setRun (.pausedOnKeyWait x)) (by simp)
  refine ⟨_, exec_ldKey x s, rfl, changesOnly_setRun s _, rfl, rfl, hstep, rfl,
    ⟨_, deliverKeyEvent_of_lt false _ hk, ?_⟩, ⟨_, deliverKeyEvent_of_lt true _ hk, ?_⟩⟩
  · rw [wakeOnKey_of_release k (hwait _)]
    exact ⟨rfl, changesOnly_setHeld _ _⟩
  · have hkey : (BitVec.ofNat 8 k).toNat = k := Nat.mod_eq_of_lt (by omega)
    rw [wakeOnKey_of_press k (hwait _)]
    refine ⟨rfl, ?_, ?_⟩
    · rw [State.setRun_getV, State.getV_setV_same, hkey]
    · exact .trans ((changesOnly_setHeld _ _).mono (by simp))
        (.trans ((changesOnly_setV _ x _).mono (by simp)) ((changesOnly_setRun _ _).mono (by simp)))

/-! ### What changes a timer (R251) -/

theorem step_keeps_dt {s t : State} (h : step s = .next t)
    (hword : ∀ x, decode (read16 s.pc s).1 ≠ some (.ldToDt x)) : t.dt = s.dt := by
  cases step_outcome h with
  | idle _ eq => rw [eq]
  | unknown _ _ _ eq | refused _ _ eq => rw [eq]; rfl
  | executes _ fetchable i word eq =>
    rw [read16_of_permitted fetchable] at hword
    cases exec_outcome eq with
    | writes kept _ | pauses kept _ => exact kept.dt
    | halts _ _ eq | loadsSound _ _ eq => rw [eq]; rfl
    | loadsDelay x instr _ => exact absurd (instr ▸ word) (hword x)

theorem step_keeps_st {s t : State} (h : step s = .next t)
    (hword : ∀ x, decode (read16 s.pc s).1 ≠ some (.ldToSt x)) : t.st = s.st := by
  cases step_outcome h with
  | idle _ eq => rw [eq]
  | unknown _ _ _ eq | refused _ _ eq => rw [eq]; rfl
  | executes _ fetchable i word eq =>
    rw [read16_of_permitted fetchable] at hword
    cases exec_outcome eq with
    | writes kept _ | pauses kept _ => exact kept.st
    | halts _ _ eq | loadsDelay _ _ eq => rw [eq]; rfl
    | loadsSound x instr _ => exact absurd (instr ▸ word) (hword x)

/-- An accepted load writes memory alone. -/
theorem loadProgram_shape {bytes : List Byte} {s t : State} (h : loadProgram bytes s = .next t) :
    bytes.length ≤ 3583 ∧ t = s.setBytes programBase bytes := by
  by_cases hfits : bytes.length ≤ 3583
  · cases (loadProgram_of_fits hfits s).symm.trans h
    exact ⟨hfits, rfl⟩
  · cases (loadProgram_of_too_long hfits s).symm.trans h

/-- Settles O50: the floor of R251 is subtraction on naturals, and each other transaction writes neither timer. -/
theorem timersChangeOnlyByLoadTickAndReset : Obligations.TimersChangeOnlyByLoadTickAndReset := by
  refine ⟨fun s ms => ?_, fun s t h => ⟨step_keeps_dt h, step_keeps_st h⟩, fun s t k pressed h => ?_,
    fun s t bytes h => ?_⟩
  · intro k
    obtain ⟨hdt, hst, -, -⟩ := tickCountsDown s ms
    rw [hdt, hst]
    omega
  · obtain ⟨_, _, _, rfl⟩ := keyEvent_shape h
    exact ⟨rfl, rfl⟩
  · obtain ⟨-, rfl⟩ := loadProgram_shape h
    exact ⟨rfl, rfl⟩

end Sys2Proof.Machine

/-! PROOF. What holds along every run (10_state.md §6 to §8, 60_exceptions.md §2 and §7, 45_draw.md §2): each property is
kept by one instruction, so by one step, so by one transaction, so by every schedule. -/

namespace Sys2Proof.Machine

/-! ### Schedules -/

theorem transactAll_cons {tr : Transaction} {ts : List Transaction} {s t : State}
    (h : transactAll (tr :: ts) s = .next t) : ∃ u, transact tr s = .next u ∧ transactAll ts u = .next t := by
  rw [transactAll] at h
  split at h
  · next u hu => exact ⟨u, hu, h⟩
  · cases h
  · cases h

/-- The one induction over a schedule: what each of its transactions keeps, the schedule keeps. -/
theorem transactAll_keeps {P : State → Prop} {ts : List Transaction} {s t : State}
    (hkeep : ∀ tr ∈ ts, ∀ u v, P u → transact tr u = .next v → P v) (hs : P s) (h : transactAll ts s = .next t) :
    P t := by
  induction ts generalizing s with
  | nil => cases h; exact hs
  | cons tr ts ih =>
    obtain ⟨u, hu, hrest⟩ := transactAll_cons h
    have hPu : P u := hkeep tr List.mem_cons_self s u hs hu
    exact ih (fun tr' htr' => hkeep tr' (List.mem_cons_of_mem tr htr')) hPu hrest

/-! ### The invariant -/

section
variable {s : State} (hinv : s.Inv)
include hinv

/-- A change of memory that keeps its form and its regions. -/
theorem State.Inv.of_mem {t : State} (hwf : Sys2Proof.Machine.memWf t.mem = true)
    (hin : Sys2Proof.Machine.memInRegions t.mem = true) (hsp : t.sp = s.sp) (hacc : t.acc = s.acc) : t.Inv :=
  ⟨hwf, hin, hsp ▸ hinv.spOk, hacc ▸ hinv.accLt⟩

/-- No change of memory, SP or ACC. -/
theorem State.Inv.of_same {t : State} (hmem : t.mem = s.mem) (hsp : t.sp = s.sp) (hacc : t.acc = s.acc) : t.Inv :=
  hinv.of_mem (hmem ▸ hinv.memWf) (hmem ▸ hinv.memInRegions) hsp hacc

theorem inv_skipIf (test : Bool) : (skipIf test s).Inv := by
  cases test
  · exact hinv
  · exact hinv.of_same rfl rfl rfl

/-- The slot above an SP that is not the last is in the stack region. -/
theorem inv_pushed (hroom : s.sp ≠ 0xFE) (v : Word) : (pushed v s).Inv := by
  have hle := toNat_sp_le_of_ne_full hinv.spOk hroom
  have hge := ((spOk_iff s.sp).1 hinv.spOk).1
  have hhi : tag (s.sp.toNat + 2) ≠ .none := (tag_ne_none_iff _).2 (by omega)
  have hlo : tag (s.sp.toNat + 2 + 1) ≠ .none := (tag_ne_none_iff _).2 (by omega)
  exact ⟨memWf_pushed hinv.memWf v, memInRegions_memWrite (memInRegions_memWrite hinv.memInRegions hhi _) hlo _,
    spOk_add_two hinv.spOk hroom, hinv.accLt⟩

theorem inv_clearDisplay : (clearDisplay s).Inv := by
  obtain ⟨m, e⟩ := clearDisplay_shape s
  exact hinv.of_mem (memWf_clearDisplay hinv.memWf) (memInRegions_clearDisplay hinv.memInRegions) (by rw [e]) (by rw [e])

theorem inv_drawSprite (xc yc : Byte) (addr : Word) (n : Nat) : (drawSprite xc yc addr n s).2.Inv := by
  obtain ⟨m, l, e⟩ := drawSprite_shape xc yc addr n s
  exact hinv.of_mem (memWf_drawSprite hinv.memWf xc yc addr n) (memInRegions_drawSprite hinv.memInRegions xc yc addr n)
    (by rw [e]) (by rw [e])

theorem inv_write8 (a : Word) (v : Byte) : (write8 a v s).2.Inv := by
  obtain ⟨m, l, e⟩ := write8_shape a v s
  exact hinv.of_mem (memWf_write8 hinv.memWf a v) (memInRegions_write8 hinv.memInRegions a v) (by rw [e]) (by rw [e])

theorem inv_storeRegs (base : Word) (n : Nat) : (storeRegs base n s).Inv := by
  induction n with
  | zero => exact hinv
  | succ k ih => exact inv_write8 ih _ _

theorem inv_loadRegs (base : Word) (n : Nat) : (loadRegs base n s).Inv := by
  obtain ⟨v, l, e⟩ := loadRegs_shape base n s
  exact hinv.of_same (by rw [e]) (by rw [e]) (by rw [e])

/-- The case split of the 34: the operation each one is keeps the invariant. -/
theorem exec_keeps_inv {i : Instr} {t : State} (h : exec i s = .next t) : t.Inv := by
  cases i with
  | cls ign => cases h; exact inv_clearDisplay hinv
  | ret ign =>
    by_cases hempty : s.sp = 0xE0
    · cases (exec_ret_of_empty hempty ign).symm.trans h
      exact hinv.of_same rfl rfl rfl
    · cases (exec_ret_of_nonempty hinv.spOk hempty ign).symm.trans h
      exact ⟨hinv.memWf, hinv.memInRegions, spOk_sub_two hinv.spOk hempty, hinv.accLt⟩
  | call nnn =>
    by_cases hfull : s.sp = 0xFE
    · cases (exec_call_of_full hfull nnn).symm.trans h
      exact hinv.of_same rfl rfl rfl
    · cases (exec_call_of_room hinv.spOk hfull nnn).symm.trans h
      exact (inv_pushed hinv hfull s.pc).of_same rfl rfl rfl
  | jp nnn =>
    rw [exec_jp] at h
    split at h <;> cases h <;> exact hinv.of_same rfl rfl rfl
  | seImm | sneImm | seReg | sneReg | skp | sknp => cases h; exact inv_skipIf hinv _
  | drw x y n => cases h; exact (inv_drawSprite hinv (s.getV x) (s.getV y) s.i n.toNat).of_same rfl rfl rfl
  | ldBcd x => cases h; exact inv_write8 (inv_write8 (inv_write8 hinv _ _) _ _) _ _
  | ldStore x => cases h; exact (inv_storeRegs hinv s.i (x.toNat + 1)).of_same rfl rfl rfl
  | ldLoad x => cases h; exact (inv_loadRegs hinv s.i (x.toNat + 1)).of_same rfl rfl rfl
  | _ => cases h; exact hinv.of_same rfl rfl rfl

theorem inv_setBytes {base : Nat} {bs : List Byte} (hlo : 0x090 ≤ base) (hhi : base + bs.length ≤ 0xFFF) :
    (s.setBytes base bs).Inv :=
  hinv.of_mem (memWf_memWriteBytes hinv.memWf _ _) (memInRegions_memWriteBytes hinv.memInRegions hlo hhi) rfl rfl

theorem inv_resetMemory : (resetMemory s).Inv :=
  inv_setBytes (inv_clearDisplay hinv) (by decide) (by rw [Vector.length_toList]; decide)

theorem inv_resetBlock : (resetBlock s).Inv := by
  rw [resetBlock_eq]
  obtain ⟨hwf, hin, -, -⟩ := inv_resetMemory hinv
  have hsp : spOk 0xE0 = true := by decide
  have hacc : 0 < Config.unitsPerFrame := by decide
  exact ⟨hwf, hin, hsp, hacc⟩

end

/-- Settles O55: a step that executes is an instruction from the state with PC advanced, and every other case of a step
writes neither memory nor SP nor ACC. -/
theorem stepKeepsTheInvariant : Obligations.StepKeepsTheInvariant := by
  intro s t hinv h
  cases step_outcome h with
  | idle _ eq => exact eq ▸ hinv
  | executes _ _ i _ eq => exact exec_keeps_inv (s := s.setPc (s.pc + 2)) (hinv.of_same rfl rfl rfl) eq
  | unknown _ _ _ eq | refused _ _ eq => rw [eq]; exact hinv.of_same rfl rfl rfl

theorem transact_keeps_inv {tr : Transaction} {s t : State} (hinv : s.Inv) (h : transact tr s = .next t) : t.Inv := by
  cases tr with
  | step => exact stepKeepsTheInvariant s t hinv h
  | tick ms =>
    cases h
    exact ⟨hinv.memWf, hinv.memInRegions, hinv.spOk, Nat.mod_lt _ (by decide)⟩
  | keyEvent k pressed =>
    obtain ⟨_, _, _, rfl⟩ := keyEvent_shape h
    exact hinv.of_same rfl rfl rfl
  | reset => cases h; exact inv_resetBlock hinv
  | load bytes =>
    obtain ⟨hfits, rfl⟩ := loadProgram_shape h
    exact inv_setBytes hinv (by decide) (by simp only [programBase]; omega)

/-- Settles O56: every transaction keeps the invariant. -/
theorem everyScheduleKeepsTheInvariant : Obligations.EveryScheduleKeepsTheInvariant :=
  fun _ _ _ hinv h => transactAll_keeps (fun _ _ _ _ => transact_keeps_inv) hinv h

/-- Settles O54: power-on lists bytes of the font region alone. -/
theorem powerOnMeetsTheInvariant : Obligations.PowerOnMeetsTheInvariant := by
  have hreset : State.reset.Inv := ⟨rfl, rfl, by decide, by decide⟩
  refine ⟨fun q1 q2 font => ?_, hreset⟩
  have hunfilled : (unfilled q1 q2 font).Inv := hreset.of_same rfl rfl rfl
  exact inv_setBytes hunfilled (by decide) (by rw [Vector.length_toList]; decide)

/-! ### The parameters of construction (R34) -/

/-- Both quirk bits and FONT are the same. -/
def SameParameters (s t : State) : Prop :=
  t.quirkShiftSingle = s.quirkShiftSingle ∧ t.quirkLdstNoInc = s.quirkLdstNoInc ∧ t.font = s.font

theorem SameParameters.trans {s t u : State} (h : SameParameters s t) (h' : SameParameters t u) : SameParameters s u :=
  ⟨h'.1.trans h.1, h'.2.1.trans h.2.1, h'.2.2.trans h.2.2⟩

theorem exec_keeps_parameters {i : Instr} {s t : State} (h : exec i s = .next t) : SameParameters s t := by
  cases exec_outcome h with
  | writes kept _ | pauses kept _ => exact ⟨kept.quirkShiftSingle, kept.quirkLdstNoInc, kept.font⟩
  | halts _ _ eq | loadsDelay _ _ eq | loadsSound _ _ eq => rw [eq]; exact ⟨rfl, rfl, rfl⟩

theorem step_keeps_parameters {s t : State} (h : step s = .next t) : SameParameters s t := by
  cases step_outcome h with
  | idle _ eq => rw [eq]; exact ⟨rfl, rfl, rfl⟩
  | executes _ _ i _ eq => exact exec_keeps_parameters (s := s.setPc (s.pc + 2)) eq
  | unknown _ _ _ eq | refused _ _ eq => rw [eq]; exact ⟨rfl, rfl, rfl⟩

theorem transact_keeps_parameters {tr : Transaction} {s t : State} (h : transact tr s = .next t) :
    SameParameters s t := by
  cases tr with
  | step => exact step_keeps_parameters h
  | tick ms => cases h; exact ⟨rfl, rfl, rfl⟩
  | keyEvent k pressed =>
    obtain ⟨_, _, _, rfl⟩ := keyEvent_shape h
    exact ⟨rfl, rfl, rfl⟩
  | reset =>
    obtain ⟨m, e⟩ := resetBlock_shape s
    cases h
    rw [e]
    exact ⟨rfl, rfl, rfl⟩
  | load bytes =>
    obtain ⟨-, rfl⟩ := loadProgram_shape h
    exact ⟨rfl, rfl, rfl⟩

/-- Settles O57: every transaction leaves the three. -/
theorem constructionParametersNeverChange : Obligations.ConstructionParametersNeverChange :=
  fun _ s _ h => transactAll_keeps (P := SameParameters s)
    (fun _ _ _ _ hu hv => hu.trans (transact_keeps_parameters hv)) ⟨rfl, rfl, rfl⟩ h

/-! ### Halted (R238) -/

/-- Halted with this report, and the registers that a halted run shows are those of `s`. -/
def HaltedAs (r : HaltReport) (s t : State) : Prop :=
  t.run = .halted r ∧ t.v = s.v ∧ t.i = s.i ∧ t.pc = s.pc ∧ t.sp = s.sp

theorem transact_keeps_halted {tr : Transaction} (htr : tr ≠ .reset) {r : HaltReport} {s t u : State}
    (hhalt : HaltedAs r s t) (h : transact tr t = .next u) : HaltedAs r s u := by
  obtain ⟨hrun, hregs⟩ := hhalt
  cases tr with
  | step =>
    cases (step_of_not_running (by simp [hrun])).symm.trans h
    exact ⟨hrun, hregs⟩
  | tick ms => cases h; exact ⟨hrun, hregs⟩
  | keyEvent k pressed =>
    by_cases hk : k < 16
    · have hsame := wakeOnKey_of_halted (s := t.setHeld (heldAfter k pressed t.held)) k pressed hrun
      cases (deliverKeyEvent_of_lt pressed t hk).symm.trans h
      rw [hsame]
      exact ⟨hrun, hregs⟩
    · cases (deliverKeyEvent_of_not_lt pressed t hk).symm.trans h
  | reset => exact absurd rfl htr
  | load bytes =>
    obtain ⟨-, rfl⟩ := loadProgram_shape h
    exact ⟨hrun, hregs⟩

/-- Settles O58: every transaction but reset() leaves the report and the registers. -/
theorem haltedUntilReset : Obligations.HaltedUntilReset := by
  intro ts s t r hrun hreset h
  exact transactAll_keeps (P := HaltedAs r s)
    (fun tr htr _ _ hu hv => transact_keeps_halted (fun e => hreset (e ▸ htr)) hu hv) ⟨hrun, rfl, rfl, rfl, rfl⟩ h

/-! ### The diagnostic output (R44) -/

theorem exec_log_grows {i : Instr} {s t : State} (h : exec i s = .next t) : ∃ events, t.log = s.log ++ events := by
  cases exec_outcome h with
  | writes kept _ | pauses kept _ => exact kept.log
  | halts _ _ eq | loadsDelay _ _ eq | loadsSound _ _ eq => rw [eq]; exact ⟨[], (List.append_nil _).symm⟩

theorem step_log_grows {s t : State} (h : step s = .next t) : ∃ events, t.log = s.log ++ events := by
  cases step_outcome h with
  | idle _ eq => rw [eq]; exact ⟨[], (List.append_nil _).symm⟩
  | executes _ _ i _ eq => exact exec_log_grows (s := s.setPc (s.pc + 2)) eq
  | unknown _ _ _ eq => rw [eq]; exact ⟨[], (List.append_nil _).symm⟩
  | refused _ _ eq => rw [eq]; exact ⟨_, rfl⟩

theorem transact_keeps_log {tr : Transaction} (htr : tr ≠ .step) {s t : State} (h : transact tr s = .next t) :
    t.log = s.log := by
  cases tr with
  | step => exact absurd rfl htr
  | tick ms => cases h; rfl
  | keyEvent k pressed =>
    obtain ⟨_, _, _, rfl⟩ := keyEvent_shape h
    rfl
  | reset =>
    obtain ⟨m, e⟩ := resetBlock_shape s
    cases h
    rw [e]
    rfl
  | load bytes =>
    obtain ⟨-, rfl⟩ := loadProgram_shape h
    rfl

/-- Settles O59: a step appends, and every other transaction leaves the output. -/
theorem diagnosticOutputOnlyGrows : Obligations.DiagnosticOutputOnlyGrows := by
  intro tr s t h
  refine ⟨?_, fun htr => transact_keeps_log htr h⟩
  by_cases htr : tr = .step
  · subst htr
    exact step_log_grows h
  · exact ⟨[], by rw [transact_keeps_log htr h, List.append_nil]⟩

/-! ### What changes the display (R177) -/

theorem snapshotDisplay_congr {s t : State} (h : ∀ a, 0x100 ≤ a → a ≤ 0x1FF → t.byteAt a = s.byteAt a) :
    t.snapshotDisplay = s.snapshotDisplay := by
  rw [State.snapshotDisplay, State.snapshotDisplay, memReadBytes, memReadBytes]
  refine List.map_congr_left fun k hk => ?_
  have hlt : k < 256 := List.mem_range.1 hk
  exact h (0x100 + k) (by omega) (by omega)

/-- The instructions that can store into the display. -/
def WritesDisplay (i : Instr) : Prop :=
  (∃ g, i = .cls g) ∨ (∃ x y n, i = .drw x y n) ∨ (∃ x, i = .ldBcd x) ∨ (∃ x, i = .ldStore x)

/-- The others store, if at all, into the slot above SP, which is in the stack region. -/
theorem mem_notMem_footprint {i : Instr} (hi : ¬ WritesDisplay i) {s : State} (hok : spOk s.sp = true) {a : Nat}
    (ha : a < 0x0E0 ∨ 0x100 ≤ a) : Component.mem a ∉ footprint i s := by
  cases i with
  | cls | drw | ldBcd | ldStore => exact absurd (by simp [WritesDisplay]) hi
  | call nnn =>
    rw [footprint]
    split
    · simp
    · next hroom =>
      have hle := toNat_sp_le_of_ne_full hok hroom
      have hge := ((spOk_iff s.sp).1 hok).1
      simp
      omega
  | ret ign => rw [footprint]; split <;> simp
  | _ => simp [footprint]

theorem exec_keeps_bytes_off_stack {i : Instr} (hi : ¬ WritesDisplay i) {s t : State} (hwf : memWf s.mem = true)
    (hok : spOk s.sp = true) (h : exec i s = .next t) {a : Nat} (ha : a < 0x0E0 ∨ 0x100 ≤ a) :
    t.byteAt a = s.byteAt a :=
  everyInstructionKeepsToItsFootprint i s t hwf hok h (.mem a) (mem_notMem_footprint hi hok ha)

theorem exec_keeps_display {i : Instr} (hi : ¬ WritesDisplay i) {s t : State} (hwf : memWf s.mem = true)
    (hok : spOk s.sp = true) (h : exec i s = .next t) : t.snapshotDisplay = s.snapshotDisplay :=
  snapshotDisplay_congr fun _ hlo _ => exec_keeps_bytes_off_stack hi hwf hok h (.inr hlo)

theorem step_keeps_display {s t : State} (hwf : memWf s.mem = true) (hok : spOk s.sp = true) (h : step s = .next t)
    (hword : s.run = .running → ∀ i, decode (read16 s.pc s).1 = some i → ¬ WritesDisplay i) :
    t.snapshotDisplay = s.snapshotDisplay := by
  cases step_outcome h with
  | idle _ eq => rw [eq]
  | executes run fetchable i word eq =>
    rw [read16_of_permitted fetchable] at hword
    exact exec_keeps_display (hword run i word) (s := s.setPc (s.pc + 2)) hwf hok eq
  | unknown _ _ _ eq | refused _ _ eq => rw [eq]; rfl

theorem setBytes_program_keeps_display {s : State} (hwf : memWf s.mem = true) (bytes : List Byte) :
    (s.setBytes programBase bytes).snapshotDisplay = s.snapshotDisplay :=
  snapshotDisplay_congr fun _ _ hhi =>
    byteAt_setBytes_outside hwf programBase bytes (.inl (by simp only [programBase]; omega))

/-- The four exclusions, as the statements list them. -/
theorem not_writesDisplay_iff (i : Instr) :
    ¬ WritesDisplay i ↔
      (∀ g, i ≠ .cls g) ∧ (∀ x y n, i ≠ .drw x y n) ∧ (∀ x, i ≠ .ldBcd x) ∧ (∀ x, i ≠ .ldStore x) := by
  simp only [WritesDisplay, not_or, not_exists, ne_eq]

/-- Settles O60: no display byte is in the footprint of another instruction, and of the transactions only a step and
reset() store below program space. -/
theorem displayChangesOnlyByDrawClearAndStore : Obligations.DisplayChangesOnlyByDrawClearAndStore := by
  constructor
  · intro i s t hwf hok h hcls hdrw hbcd hstore
    have hi : ¬ WritesDisplay i := (not_writesDisplay_iff i).2 ⟨hcls, hdrw, hbcd, hstore⟩
    exact ⟨exec_keeps_display hi hwf hok h, fun a ha => exec_keeps_bytes_off_stack hi hwf hok h ha⟩
  · intro tr s t hwf hok h hreset hword
    cases tr with
    | step =>
      exact step_keeps_display hwf hok h fun hrun i hi => (not_writesDisplay_iff i).2 (hword rfl hrun i hi)
    | tick ms => cases h; rfl
    | keyEvent k pressed =>
      obtain ⟨_, _, _, rfl⟩ := keyEvent_shape h
      rfl
    | reset => exact absurd rfl hreset
    | load bytes =>
      obtain ⟨-, rfl⟩ := loadProgram_shape h
      exact setBytes_program_keeps_display hwf bytes

end Sys2Proof.Machine

/-! PROOF. DRW (45_draw.md): the rows in order in the pixel view, the sprite all at once where drawing does not change its
own bytes, and the double draw. -/

namespace Sys2Proof.Machine

/-! ### DRW row by row (R171, R174) -/

section
variable {s : State} (hwf : memWf s.mem = true) (xc yc : Byte) (addr : Word)
include hwf

/-- The collision of a sprite is that of one of its rows, on the display that the rows before it left. -/
theorem drawSprite_fst_iff (n : Nat) :
    (drawSprite xc yc addr n s).1 = true ↔ ∃ r < n, RowCollides xc yc addr r (drawSprite xc yc addr r s).2 := by
  induction n with
  | zero => simp [drawSprite]
  | succ n ih =>
    rw [drawSprite_succ, drawRow_fst (memWf_drawSprite hwf xc yc addr n), ih]
    simp only [Nat.lt_succ_iff_lt_or_eq, or_and_right, exists_or, exists_eq_left]

theorem log_drawSprite (n : Nat) : (drawSprite xc yc addr n s).2.log = s.log ++ refusals .read addr n := by
  induction n with
  | zero => exact (List.append_nil _).symm
  | succ n ih =>
    rw [drawSprite_succ, (rowDrawn_drawRow (memWf_drawSprite hwf xc yc addr n) xc yc addr n).events, ih, refusals_succ,
      List.append_assoc]

theorem byteAt_drawSprite_outside (n : Nat) {a : Nat} (ha : ¬ (0x100 ≤ a ∧ a ≤ 0x1FF)) :
    (drawSprite xc yc addr n s).2.byteAt a = s.byteAt a := by
  refine changesOnly_drawSprite hwf xc yc addr n (.mem a) ?_
  simp only [List.mem_cons, mem_bytesFrom, displayBase, displayBytes]
  rintro (e | ⟨k, hk, e⟩)
  · cases e
  · cases e
    omega

/-- So drawing leaves what a read outside the display gives. -/
theorem readableByte_drawSprite (n : Nat) {a : Word} (ha : tag a.toNat ≠ .display) :
    readableByte (drawSprite xc yc addr n s).2 a = readableByte s a := by
  rw [ne_eq, tag_eq_display_iff] at ha
  rw [readableByte, readableByte, byteAt_drawSprite_outside hwf xc yc addr n ha]

end

theorem flagByte_of_iff {f : Bool} {p : Prop} (h : f = true ↔ p) :
    (p → flagByte f = 1) ∧ (¬ p → flagByte f = 0) := by
  cases f with
  | true => exact ⟨fun _ => rfl, fun hp => absurd (h.1 rfl) hp⟩
  | false => exact ⟨fun hp => absurd (h.2 hp) Bool.false_ne_true, fun _ => rfl⟩

/-- The value of VF after DRW, from what decides the collision. -/
theorem getV_regF_of_iff {f : Bool} {p : Prop} (h : f = true ↔ p) (s : State) :
    (p → (s.setV regF (flagByte f)).getV regF = 1) ∧ (¬ p → (s.setV regF (flagByte f)).getV regF = 0) := by
  rw [State.getV_setV_same]
  exact flagByte_of_iff h

/-- Settles O33: the states between the rows are those of `drawSprite`, and VF is written after them. -/
theorem drwDrawsRowByRow : Obligations.DrwDrawsRowByRow := by
  intro s x y n hwf
  have hflag := getV_regF_of_iff (drawSprite_fst_iff hwf (s.getV x) (s.getV y) s.i n.toNat)
    (drawSprite (s.getV x) (s.getV y) s.i n.toNat s).2
  refine ⟨_, fun r => (drawSprite (s.getV x) (s.getV y) s.i r s).2, exec_drw x y n s, rfl, fun r _ => ?_,
    changesOnly_setV _ _ _, hflag.1, hflag.2⟩
  exact rowDrawn_drawRow (memWf_drawSprite hwf _ _ _ r) _ _ _ r

/-! ### The sprite all at once (R173) -/

/-- Some row of the sprite covers the pixel. -/
def spriteCovers (xc yc : Byte) (addr : Word) (s : State) (n px py : Nat) : Bool :=
  decide (∃ r < n, rowCovers xc yc r (readableByte s (offsetAddr addr r)) px py = true)

section
variable (xc yc : Byte) (addr : Word) (s : State) {n : Nat} (px py : Nat)

theorem spriteCovers_iff :
    spriteCovers xc yc addr s n px py = true ↔
      ∃ r < n, rowCovers xc yc r (readableByte s (offsetAddr addr r)) px py = true :=
  decide_eq_true_iff

theorem row_of_rowCovers {r : Nat} {b : Byte} (h : rowCovers xc yc r b px py = true) : (yc.toNat + r) % 32 = py := by
  rw [rowCovers, Bool.and_eq_true, decide_eq_true_eq] at h
  exact h.1

/-- Fewer than 32 rows lie on distinct rows of the display, so a pixel that a row covers is covered by none before it. -/
theorem not_spriteCovers_of_rowCovers (hn : n < 32) {b : Byte} (h : rowCovers xc yc n b px py = true) :
    spriteCovers xc yc addr s n px py = false := by
  rw [← Bool.not_eq_true, spriteCovers_iff]
  rintro ⟨r, hr, hcov⟩
  have hrow := row_of_rowCovers xc yc px py h
  have hrow' := row_of_rowCovers xc yc px py hcov
  omega

theorem spriteCovers_succ_iff :
    spriteCovers xc yc addr s (n + 1) px py = true ↔
      spriteCovers xc yc addr s n px py = true ∨
        rowCovers xc yc n (readableByte s (offsetAddr addr n)) px py = true := by
  simp only [spriteCovers_iff, Nat.lt_succ_iff_lt_or_eq, or_and_right, exists_or, exists_eq_left]

theorem spriteCovers_succ (hn : n < 32) :
    spriteCovers xc yc addr s (n + 1) px py =
      Bool.xor (spriteCovers xc yc addr s n px py)
        (rowCovers xc yc n (readableByte s (offsetAddr addr n)) px py) := by
  rw [Bool.eq_iff_iff, spriteCovers_succ_iff]
  cases hrow : rowCovers xc yc n (readableByte s (offsetAddr addr n)) px py with
  | true => simp [not_spriteCovers_of_rowCovers xc yc addr s px py hn hrow]
  | false => simp

end

section
variable {s : State} (hwf : memWf s.mem = true) (xc yc : Byte) (addr : Word)
include hwf

/-- A sprite outside the display inverts the pixels it covers. -/
theorem pixel_drawSprite {n : Nat} (hn : n ≤ 32) (hoff : SpriteOffDisplay addr n) {px py : Nat} (hx : px < 64)
    (hy : py < 32) :
    (drawSprite xc yc addr n s).2.pixel px py = Bool.xor (s.pixel px py) (spriteCovers xc yc addr s n px py) := by
  induction n with
  | zero => simp [drawSprite, spriteCovers]
  | succ n ih =>
    rw [drawSprite_succ, pixel_drawRow (memWf_drawSprite hwf xc yc addr n) xc yc addr n hx hy,
      readableByte_drawSprite hwf xc yc addr n (hoff n n.lt_succ_self),
      ih (by omega) fun r hr => hoff r (Nat.lt_succ_of_lt hr), spriteCovers_succ xc yc addr s px py (by omega),
      Bool.xor_assoc]

/-- A row meets a set pixel where the display at the start has one, because no row before it has touched that pixel. -/
theorem rowCollides_drawSprite_iff {n : Nat} (hn : n < 32) (hoff : SpriteOffDisplay addr (n + 1)) :
    RowCollides xc yc addr n (drawSprite xc yc addr n s).2 ↔
      ∃ px < 64, ∃ py < 32, s.pixel px py = true ∧
        rowCovers xc yc n (readableByte s (offsetAddr addr n)) px py = true := by
  rw [RowCollides, readableByte_drawSprite hwf xc yc addr n (hoff n n.lt_succ_self)]
  refine exists_congr fun px => and_congr_right fun hx => exists_congr fun py => and_congr_right fun hy =>
    and_congr_left fun hcov => ?_
  rw [pixel_drawSprite hwf xc yc addr hn.le (fun r hr => hoff r (Nat.lt_succ_of_lt hr)) hx hy,
    not_spriteCovers_of_rowCovers xc yc addr s px py hn hcov, Bool.xor_false]

/-- A sprite outside the display collides exactly when it covers a set pixel. -/
theorem drawSprite_fst_iff_covers {n : Nat} (hn : n ≤ 32) (hoff : SpriteOffDisplay addr n) :
    (drawSprite xc yc addr n s).1 = true ↔
      ∃ px < 64, ∃ py < 32, s.pixel px py = true ∧ spriteCovers xc yc addr s n px py = true := by
  induction n with
  | zero => simp [drawSprite, spriteCovers]
  | succ n ih =>
    rw [drawSprite_succ, drawRow_fst (memWf_drawSprite hwf xc yc addr n),
      ih (by omega) fun r hr => hoff r (Nat.lt_succ_of_lt hr), rowCollides_drawSprite_iff hwf xc yc addr hn hoff]
    simp only [spriteCovers_succ_iff, and_or_left, exists_or]

/-- The same by the display before and after: a covered pixel is one that is inverted. -/
theorem drawSprite_fst_iff_cleared {n : Nat} (hn : n ≤ 32) (hoff : SpriteOffDisplay addr n) :
    (drawSprite xc yc addr n s).1 = true ↔
      ∃ px < 64, ∃ py < 32, s.pixel px py = true ∧ (drawSprite xc yc addr n s).2.pixel px py = false := by
  rw [drawSprite_fst_iff_covers hwf xc yc addr hn hoff]
  refine exists_congr fun px => and_congr_right fun hx => exists_congr fun py => and_congr_right fun hy =>
    and_congr_right fun hset => ?_
  rw [pixel_drawSprite hwf xc yc addr hn hoff hx hy, hset]
  simp

end

/-- Settles O34: the pixels, the collision and the events of `drawSprite`, and VF written after it. -/
theorem drwInvertsTheSpritePixels : Obligations.DrwInvertsTheSpritePixels := by
  intro s x y n hwf hoff covers
  have hn : n.toNat ≤ 32 := by have := n.isLt; omega
  have hflag := getV_regF_of_iff (drawSprite_fst_iff_cleared hwf (s.getV x) (s.getV y) s.i hn hoff)
    (drawSprite (s.getV x) (s.getV y) s.i n.toNat s).2
  have hframe := changesOnly_drawSprite hwf (s.getV x) (s.getV y) s.i n.toNat
  refine ⟨_, exec_drw x y n s, fun px hx py hy => pixel_drawSprite hwf _ _ _ hn hoff hx hy, hflag.1, hflag.2,
    log_drawSprite hwf _ _ _ _, ?_⟩
  exact (hframe.mono (by simp +contextual)).trans ((changesOnly_setV _ _ _).mono (by simp))

/-! ### The double draw (R176) -/

section
variable {s t : State} (hwf : memWf s.mem = true) (xc yc : Byte) (addr : Word) {n : Nat} (hn : n ≤ 32)
  (hoff : SpriteOffDisplay addr n) (hmem : t.mem = (drawSprite xc yc addr n s).2.mem)
include hwf hoff hmem

/-- The sprite's bytes are outside the display, so the second draw covers the pixels of the first. -/
theorem spriteCovers_twice (px py : Nat) : spriteCovers xc yc addr t n px py = spriteCovers xc yc addr s n px py := by
  rw [Bool.eq_iff_iff, spriteCovers_iff, spriteCovers_iff]
  refine exists_congr fun r => and_congr_right fun hr => ?_
  have hbyte : readableByte t (offsetAddr addr r) = readableByte (drawSprite xc yc addr n s).2 (offsetAddr addr r) := by
    simp only [readableByte, State.byteAt, hmem]
  rw [hbyte, readableByte_drawSprite hwf xc yc addr n (hoff r hr)]

include hn

/-- Two inversions of the same pixels restore them. -/
theorem pixel_drawSprite_twice {px py : Nat} (hx : px < 64) (hy : py < 32) :
    (drawSprite xc yc addr n t).2.pixel px py = s.pixel px py := by
  have hwft : memWf t.mem = true := hmem ▸ memWf_drawSprite hwf xc yc addr n
  have hpixel : t.pixel px py = (drawSprite xc yc addr n s).2.pixel px py := by
    rw [State.pixel, State.pixel, State.byteAt, State.byteAt, hmem]
  rw [pixel_drawSprite hwft xc yc addr hn hoff hx hy, spriteCovers_twice hwf xc yc addr hoff hmem, hpixel,
    pixel_drawSprite hwf xc yc addr hn hoff hx hy, Bool.xor_assoc, Bool.xor_self, Bool.xor_false]

/-- Both draws leave the bytes outside the display, and the second restores the pixels; memory is in canonical form. -/
theorem mem_drawSprite_twice : (drawSprite xc yc addr n t).2.mem = s.mem := by
  have hwft : memWf t.mem = true := hmem ▸ memWf_drawSprite hwf xc yc addr n
  refine mem_ext (memWf_drawSprite hwft xc yc addr n) hwf fun a => ?_
  by_cases ha : 0x100 ≤ a ∧ a ≤ 0x1FF
  · exact (display_eq_iff_pixels s (drawSprite xc yc addr n t).2).2
      (fun px hx py hy => pixel_drawSprite_twice hwf xc yc addr hn hoff hmem hx hy) a ha.1 (Nat.lt_succ_of_le ha.2)
  · calc memRead (drawSprite xc yc addr n t).2.mem a
        = memRead t.mem a := byteAt_drawSprite_outside hwft xc yc addr n ha
      _ = memRead (drawSprite xc yc addr n s).2.mem a := by rw [hmem]
      _ = memRead s.mem a := byteAt_drawSprite_outside hwf xc yc addr n ha

/-- The second draw clears exactly the pixels that the first turned on. -/
theorem drawSprite_twice_fst_iff :
    (drawSprite xc yc addr n t).1 = true ↔ ∃ px < 64, ∃ py < 32, s.pixel px py = false ∧ t.pixel px py = true := by
  have hwft : memWf t.mem = true := hmem ▸ memWf_drawSprite hwf xc yc addr n
  rw [drawSprite_fst_iff_cleared hwft xc yc addr hn hoff]
  refine exists_congr fun px => and_congr_right fun hx => exists_congr fun py => and_congr_right fun hy => ?_
  rw [pixel_drawSprite_twice hwf xc yc addr hn hoff hmem hx hy]
  exact and_comm

end

/-- Settles O35: the second DRW has the coordinates and the address of the first. -/
theorem doubleDrawRestoresTheDisplay : Obligations.DoubleDrawRestoresTheDisplay := by
  intro s t x y n hwf hoff h hx hy
  have hn : n.toNat ≤ 32 := by have := n.isLt; omega
  obtain ⟨m, l, e⟩ := drawSprite_shape (s.getV x) (s.getV y) s.i n.toNat s
  have ht := Host.Outcome.next.inj ((exec_drw x y n s).symm.trans h)
  have hi : t.i = s.i := by rw [← ht, State.setV_i, e]
  have hmem : t.mem = (drawSprite (s.getV x) (s.getV y) s.i n.toNat s).2.mem := by rw [← ht, State.setV_mem]
  refine ⟨_, exec_drw x y n t, ?_⟩
  rw [hx, hy, hi]
  have hflag := getV_regF_of_iff (drawSprite_twice_fst_iff hwf _ _ _ hn hoff hmem)
    (drawSprite (s.getV x) (s.getV y) s.i n.toNat t).2
  exact ⟨mem_drawSprite_twice hwf _ _ _ hn hoff hmem, hflag.1, hflag.2⟩

end Sys2Proof.Machine
